-- ==== Sys2Proof/Word.lean ====
section
/-! DEFINITION. The two word types of the block (00_scope.md R7): a byte is 8 bits, a word is 16 bits.
Bit 0 is the least significant bit, as in Lean's `BitVec`; every value is unsigned. -/

namespace Sys2Proof

/-- A byte, 8 bits, value 0 to 255 (R7). -/
abbrev Byte := BitVec 8

/-- A word, 16 bits, value 0 to 0xFFFF (R7): the parameters `CKW`, `CWW` and `REGW` of R6 are all 16. -/
abbrev Word := BitVec 16

end Sys2Proof
end

