-- ==== Sys2Proof/Machine/Operands.lean ====
section
/-! DEFINITION. The byte-order and bit-field helpers of the pseudocode (00_scope.md R9), and the one operand form
of a command: the addend CKBYTE makes of its byte (30_encoding.md R93). -/

namespace Sys2Proof.Machine

/-- `be16(h, l) = h * 256 + l`: big-endian assembly of two bytes (R9, 20_memory.md R69). -/
def be16 (h l : Byte) : Word := BitVec.ofNat 16 (h.toNat * 256 + l.toNat)

/-- `hi8(v) = v[15:8]` (R9). -/
def hi8 (v : Word) : Byte := v.extractLsb' 8 8

/-- `lo8(v) = v[7:0]` (R9). -/
def lo8 (v : Word) : Byte := v.extractLsb' 0 8

/-- `NOT16(v) = 0xFFFF - v`, the bitwise complement (R9). -/
def not16 (v : Word) : Word := ~~~v

/-- The 16-bit addend of CKBYTE (R93, R126): the byte is the high byte of a word when `ODD = 0` and the low byte
when `ODD = 1`. -/
def ckbyteAddend (odd : Bool) (imm8 : Byte) : Word :=
  if odd then be16 0x00#8 imm8 else be16 imm8 0x00#8

end Sys2Proof.Machine
end

