-- ==== Sys2Proof/Syntax.lean ====
section
/-! DEFINITION. The seven commands of the block, one constructor per row of the operation-code map
(30_encoding.md R92): "These seven rows are all the commands the block has." -/

namespace Sys2Proof

/-- A command of the block. The one operand a command word carries is the byte `imm8` of CKBYTE (R93);
every other operand is a register or a buffer byte. -/
inductive Instr where
  /-- `CKINIT`: start a checksum computation (R125). -/
  | ckinit
  /-- `CKBYTE imm8`: absorb one byte (R126). -/
  | ckbyte (imm8 : Byte)
  /-- `CKFIN`: deliver the checksum of the bytes absorbed so far (R127). -/
  | ckfin
  /-- `CKVFY`: compare that checksum with `EXPECT` (R128). -/
  | ckvfy
  /-- `ENCODE`: packet record to frame (R152). -/
  | encode
  /-- `DECODE`: frame to packet record (R156). -/
  | decode
  /-- `VALIDATE`: check a frame (R160). -/
  | validate
  deriving DecidableEq, Repr

end Sys2Proof
end

