-- ==== Sys2Proof/Decode.lean ====
section
/-! DEFINITION. Decoding of the 16-bit command word (30_encoding.md R90 to R95) and the encoder, both written from the
operation-code map R92. The decoder is total: a word that selects no row is rejected by name (R94, R95). -/

namespace Sys2Proof

/-- Why a command word selects no row of R92. The block treats both alike (R94): `ERR <- 6` (log 11). -/
inductive DecodeError where
  /-- the operation code `op = cw[15:8]` is assigned to no command -/
  | unassignedOp (op : Byte)
  /-- `op` is that of a format `N` command and `imm8 = cw[7:0]` is not 0x00 -/
  | operandNotZero (op imm8 : Byte)
  deriving DecidableEq, Repr

/-- One row of the operation-code map R92: the columns mnemonic, match, mask, and the command the row stands for
given the operand field `imm8` (format `N` rows ignore it: their mask makes it 0x00). -/
structure OpcodeRow where
  mnemonic : String
  pattern : Word
  mask : Word
  build : Byte → Instr

/-- The operation-code map R92. -/
def opcodeRows : List OpcodeRow :=
  [ ⟨"CKINIT", 0x0100#16, 0xFFFF#16, fun _ => .ckinit⟩
  , ⟨"CKBYTE", 0x0200#16, 0xFF00#16, fun imm8 => .ckbyte imm8⟩
  , ⟨"CKFIN", 0x0300#16, 0xFFFF#16, fun _ => .ckfin⟩
  , ⟨"CKVFY", 0x0400#16, 0xFFFF#16, fun _ => .ckvfy⟩
  , ⟨"ENCODE", 0x1000#16, 0xFFFF#16, fun _ => .encode⟩
  , ⟨"DECODE", 0x1100#16, 0xFFFF#16, fun _ => .decode⟩
  , ⟨"VALIDATE", 0x1200#16, 0xFFFF#16, fun _ => .validate⟩ ]

/-- "A command word `cw` selects a row when `cw and mask = match`" (R92). -/
def OpcodeRow.selects (r : OpcodeRow) (cw : Word) : Bool := cw &&& r.mask == r.pattern

/-- Decoding of a command word (R90, R92, R94). -/
def decode (cw : Word) : Except DecodeError Instr :=
  match opcodeRows.find? (fun r => r.selects cw) with
  | some r => .ok (r.build (Machine.lo8 cw))
  | none =>
    if opcodeRows.any (fun r => Machine.hi8 r.pattern == Machine.hi8 cw) then
      .error (.operandNotZero (Machine.hi8 cw) (Machine.lo8 cw))
    else .error (.unassignedOp (Machine.hi8 cw))

/-- The command word of a command (R92, R103). -/
def encode : Instr → Word
  | .ckinit => 0x0100#16
  | .ckbyte imm8 => 0x0200#16 + imm8.setWidth 16
  | .ckfin => 0x0300#16
  | .ckvfy => 0x0400#16
  | .encode => 0x1000#16
  | .decode => 0x1100#16
  | .validate => 0x1200#16

/-- What `decode` reads from an instruction given as a number, numbered as spec/opcode_table.json numbers it (log 14).
Every command word is exactly one 16-bit word (R90): a word of fewer bits has zeros above, a longer one does not exist. -/
def decodeTableWord (nbits w : Nat) : Option Instr :=
  if nbits ≤ 16 then
    match decode (BitVec.ofNat 16 (w % 2 ^ nbits)) with
    | .ok i => some i
    | .error _ => none
  else none

end Sys2Proof
end

