-- ==== Sys2Proof/Config.lean ====
section
/-! DEFINITION. The implementation parameters of the block and the values this hardware takes (00_scope.md R6).
The widths `CKW`, `CWW`, `REGW` are in the type `Word`. The spec leaves no parameter of a command open, so
there is no free value here; the one open parameter, `BUSMAP`, is not needed at this level (log 12). -/

namespace Sys2Proof.Config

/-- `HDR_LEN`: bytes in the packet header (R6). -/
abbrev hdrLen : Nat := 7

/-- `MAX_PAYLOAD`: the largest payload ENCODE accepts, in bytes (R6). -/
abbrev maxPayload : Nat := 1000

/-- `MAX_PACKET`: the largest packet ENCODE produces, `HDR_LEN + MAX_PAYLOAD` (R6). -/
abbrev maxPacket : Nat := hdrLen + maxPayload

/-- `PKTCAP`: capacity in bytes of the wire buffer `PKT`, equal to `MAX_PACKET` (R6). -/
abbrev pktCap : Nat := maxPacket

/-- `PAYCAP`: capacity in bytes of the payload buffer `PAY`, `PKTCAP - HDR_LEN` (R6). -/
abbrev payCap : Nat := pktCap - hdrLen

/-- `NREG`: the number of registers, numbered 0 to 10 (R6). -/
abbrev nReg : Nat := 11

/-- The flag masks of R6. No command gives a flag bit any effect (R32, R99), so nothing in the machine reads them. -/
def flagSyn : Byte := 0x01#8

/-- See `flagSyn`. -/
def flagAck : Byte := 0x02#8

/-- See `flagSyn`. -/
def flagFin : Byte := 0x04#8

/-- See `flagSyn`. -/
def flagData : Byte := 0x08#8

end Sys2Proof.Config
end

