-- ==== Sys2Proof/Machine/Port.lean ====
section
/-! DEFINITION. The host port: the address spaces and registers by name (20_memory.md R60, 10_state.md R20), the events
that can reach the block (the four host accesses of R62 and the reset input of 70_reset_and_hazards.md R210), and
the value a read returns. -/

namespace Sys2Proof.Machine

/-- The two buffer spaces (R60). -/
inductive BufSpace where
  /-- the payload buffer `PAY`, offsets 0 to 999 (10_state.md R39) -/
  | pay
  /-- the wire buffer `PKT`, offsets 0 to 1006 (10_state.md R40) -/
  | pkt
  deriving DecidableEq, Repr

/-- The eleven registers of the space `REG` (10_state.md R20). -/
inductive Reg where
  | cmd | status | seq | ack | flags | length | checksum | pktlen | ckacc | cksum | expect
  deriving DecidableEq, Repr

/-- What can reach the block from outside, one at a time. Numbers and data are plain naturals, so that an access the
block does not have (R68) can be written down, and is then refused. -/
inductive Event where
  /-- `RegRead(n)` (R63) -/
  | regRead (n : Nat)
  /-- `RegWrite(n, v)` (R65) -/
  | regWrite (n v : Nat)
  /-- `BufRead(space, a)` (R66) -/
  | bufRead (space : BufSpace) (a : Nat)
  /-- `BufWrite(space, a, v)` (R67) -/
  | bufWrite (space : BufSpace) (a v : Nat)
  /-- the reset input, `RESET` (R210) -/
  | reset
  deriving DecidableEq, Repr

/-- The value a read returns: 16 bits from a register (R63), one byte from a buffer (R66). -/
inductive ReadValue where
  | word (v : Word)
  | byte (b : Byte)
  deriving DecidableEq, Repr

/-- The capacity of a buffer: valid offsets are those below it (R60). -/
def BufSpace.capacity : BufSpace → Nat
  | .pay => Config.payCap
  | .pkt => Config.pktCap

/-- The register numbers, 0 to 10 in the order of R20. -/
def Reg.number : Reg → Nat
  | .cmd => 0 | .status => 1 | .seq => 2 | .ack => 3 | .flags => 4 | .length => 5
  | .checksum => 6 | .pktlen => 7 | .ckacc => 8 | .cksum => 9 | .expect => 10

/-- The register a number names; none above 10 (R68). -/
def Reg.ofNumber? : Nat → Option Reg
  | 0 => some .cmd | 1 => some .status | 2 => some .seq | 3 => some .ack | 4 => some .flags | 5 => some .length
  | 6 => some .checksum | 7 => some .pktlen | 8 => some .ckacc | 9 => some .cksum | 10 => some .expect
  | _ => none

end Sys2Proof.Machine
end

