-- ==== Sys2Proof/Machine/State.lean ====
section
/-! DEFINITION. The state of the block: the registers and buffers of 10_state.md R20, and two fields of the model's own
that stand for the host (log 1, log 3). All plain data. -/

namespace Sys2Proof.Machine

/-- Why the model gives a step no result although the hardware does something (60_exceptions.md R203 (c)). -/
inductive Fault where
  /-- A host read, ENCODE, DECODE or VALIDATE reads a buffer byte that nothing has written since reset (10_state.md R42,
  20_memory.md R66, R76; 93_implementation_defined.md U1). Raised by `readBytes` and `hostBufRead`. Safe: the hardware goes
  on with some byte, the model says nothing (log 4). -/
  | unspecifiedByte (space : BufSpace) (offset : Nat)
  deriving DecidableEq, Repr

/-- Why there is no step (60_exceptions.md R203 (b)). -/
inductive Refusal where
  /-- An instruction with no meaning yet. No arm of `exec` answers it: every command has its meaning. Safe. -/
  | notModelled (mnemonic : String)
  /-- A register access with a number above 10 (20_memory.md R68, U2). Raised by `perform`. Safe (log 5). -/
  | noSuchRegister (n : Nat)
  /-- A buffer access with an offset outside the buffer (R68, U2). Raised by `perform`. Safe (log 5). -/
  | noSuchOffset (space : BufSpace) (offset : Nat)
  /-- A register write datum above 0xFFFF or a buffer write datum above 255 (R68, U2). Raised by `perform`. Safe (log 5). -/
  | datumTooWide (v : Nat)
  deriving DecidableEq, Repr

/-- The contents of a buffer: the bytes that have been written since reset, as (offset, byte) pairs at strictly rising
offsets. An offset that is not listed holds an unspecified byte (R42; log 4). -/
abbrev Memory := List Host.Cell

/-- The architectural state (10_state.md R20) with the model's `pending` and `returned`. `CMD` holds nothing (R26), and
`STATUS` is held field by field and packed when it is read (R27; log 7). -/
structure State where
  /-- `STATUS.ERR`, the reason code of the most recent command word (R28) -/
  err : BitVec 4
  /-- `STATUS.VALID`, the result of the most recent VALIDATE (R29) -/
  valid : Bool
  /-- `STATUS.MATCH`, the result of the most recent CKVFY (R29) -/
  matched : Bool
  /-- `STATUS.ODD`, the parity of the bytes absorbed (R30) -/
  odd : Bool
  /-- `SEQ` (R31) -/
  seq : Byte
  /-- `ACK` (R31) -/
  ack : Byte
  /-- `FLAGS` (R32) -/
  flags : Byte
  /-- `LENGTH` (R33) -/
  length : Word
  /-- `CHECKSUM` (R34) -/
  checksum : Word
  /-- `PKTLEN` (R35) -/
  pktlen : Word
  /-- `CKACC`, the checksum accumulator (R36) -/
  ckacc : Word
  /-- `CKSUM`, the result of the most recent CKFIN (R37) -/
  cksum : Word
  /-- `EXPECT` (R38) -/
  expect : Word
  /-- the payload buffer `PAY` (R39) -/
  pay : Memory
  /-- the wire buffer `PKT` (R40) -/
  pkt : Memory
  /-- model's own: what the outside will do next, in order (20_memory.md R62; log 1) -/
  pending : List Event
  /-- model's own: the values the reads of this run have returned, oldest first (70_reset_and_hazards.md R226; log 3) -/
  returned : List ReadValue
  deriving DecidableEq, Repr

/-- The state right after `RESET` (R42): every register 0, every buffer byte unspecified; nothing pending and nothing
returned (log 1, log 3). -/
def State.reset : State where
  err := 0
  valid := false
  matched := false
  odd := false
  seq := 0
  ack := 0
  flags := 0
  length := 0
  checksum := 0
  pktlen := 0
  ckacc := 0
  cksum := 0
  expect := 0
  pay := []
  pkt := []
  pending := []
  returned := []

end Sys2Proof.Machine
end

