-- ==== Sys2Proof/Machine/Flags.lean ====
section
/-! DEFINITION. The status register: the reason codes of `STATUS.ERR` (60_exceptions.md R190) and the value `STATUS` reads as
(10_state.md R27). -/

namespace Sys2Proof.Machine

/-- The complete list of reasons a command can report (R190). -/
inductive Reason where
  | noFailure | tooShort | lengthMismatch | checksumMismatch | payloadTooLarge | frameTooLong | illegalCommand
  deriving DecidableEq, Repr

/-- The reason codes (R190; 10_state.md R28). -/
def Reason.code : Reason → BitVec 4
  | .noFailure => 0
  | .tooShort => 1
  | .lengthMismatch => 2
  | .checksumMismatch => 3
  | .payloadTooLarge => 4
  | .frameTooLong => 5
  | .illegalCommand => 6

/-- The value `STATUS` reads as: "`ERR + 16*VALID + 32*MATCH + 64*ODD`", bits 15 to 7 zero (R27). -/
def statusWord (s : State) : Word :=
  BitVec.ofNat 16 (s.err.toNat + 16 * s.valid.toNat + 32 * s.matched.toNat + 64 * s.odd.toNat)

end Sys2Proof.Machine
end

