-- ==== Sys2Proof/Machine/Ops.lean ====
section
/-! DEFINITION. The named operations over buffers and registers that the meanings share: reading and writing buffer bytes,
and how a command ends (00_scope.md R10 to R12). The block has no trap, so `fail` stands where another machine takes an exception
(60_exceptions.md R194). -/

namespace Sys2Proof.Machine

/-- What a buffer offset that is not listed reads as: no value, the byte is unspecified (10_state.md R42; log 4). -/
def Memory.unlisted : Option Byte := none

/-- The canonical form: offsets strictly rising. No listed byte equals what an unlisted offset reads as, since that is no
byte at all. -/
def Memory.wf : Memory → Bool
  | [] => true
  | [_] => true
  | c :: d :: m => decide (c.1 < d.1) && Memory.wf (d :: m)

/-- Every listed offset lies below `cap`. -/
def Memory.within (cap : Nat) (m : Memory) : Bool := m.all fun c => decide (c.1 < cap)

/-- Read of one byte, `space[a]` (R10). -/
def Memory.read : Memory → Nat → Option Byte
  | [], _ => Memory.unlisted
  | c :: m, a => if c.1 = a then some c.2 else Memory.read m a

/-- Write of one byte, `space[a] <- v` (R10), keeping the offsets rising. -/
def Memory.write : Memory → Nat → Byte → Memory
  | [], a, v => [(a, v)]
  | c :: m, a, v =>
    if a < c.1 then (a, v) :: c :: m
    else if a = c.1 then (a, v) :: m
    else c :: Memory.write m a v

/-- Write of consecutive bytes from offset `a` up. -/
def Memory.writeAll : Memory → Nat → List Byte → Memory
  | m, _, [] => m
  | m, a, v :: vs => Memory.writeAll (Memory.write m a v) (a + 1) vs

/-- Read of the `n` bytes at offsets `a` to `a + n - 1` of buffer `space`; an unspecified byte among them is a fault of the
model, the lowest one named (20_memory.md R76; log 4). -/
def readBytes (space : BufSpace) (m : Memory) : Nat → Nat → Except Fault (List Byte)
  | _, 0 => .ok []
  | a, n + 1 =>
    match Memory.read m a with
    | none => .error (.unspecifiedByte space a)
    | some b =>
      match readBytes space m (a + 1) n with
      | .error f => .error f
      | .ok bs => .ok (b :: bs)

/-- The contents of a buffer space. -/
def State.buffer (s : State) : BufSpace → Memory
  | .pay => s.pay
  | .pkt => s.pkt

/-- Replace the contents of a buffer space. -/
def State.setBuffer (s : State) (space : BufSpace) (m : Memory) : State :=
  match space with
  | .pay => { s with pay := m }
  | .pkt => { s with pkt := m }

/-- End of a command: its reason code goes to `STATUS.ERR` and nothing else is written (R11, R28). -/
def report (r : Reason) (s : State) : State := { s with err := r.code }

/-- `fail <Reason>` (R11): write the reason code, write nothing else, end the command. The machine goes on (R194). -/
def fail (r : Reason) (s : State) : Host.Outcome State Fault Refusal := .next (report r s)

/-- A command that succeeds ends with `R.STATUS.ERR <- 0` (R28). -/
def succeed (s : State) : Host.Outcome State Fault Refusal := .next (report .noFailure s)

end Sys2Proof.Machine
end

