-- ==== Sys2Proof/Machine/Sum.lean ====
section
/-! DEFINITION. The Internet checksum as a function of a byte sequence (41_checksum_engine.md R120 to R123). -/

namespace Sys2Proof.Machine

/-- At most `n` steps of the fold (R120): while the value exceeds 0xFFFF, add what lies above bit 15 back in. -/
def foldSteps : Nat → Nat → Nat
  | 0, x => x
  | n + 1, x => if x ≤ 0xFFFF then x else foldSteps n (x % 65536 + x / 65536)

/-- `fold(x)` (R120). "The argument strictly decreases while it exceeds 0xFFFF", so `x` steps are enough (log 9). -/
def fold (x : Nat) : Nat := foldSteps x x

/-- `pad(B)`: one zero byte after a sequence of odd length (R121). -/
def pad (B : List Byte) : List Byte := if B.length % 2 = 0 then B else B ++ [0x00#8]

/-- The 16-bit big-endian words of a sequence of even length (R121, R69); an unpaired last byte, which a padded sequence never has, would be
left out (log 15). -/
def words : List Byte → List Word
  | h :: l :: B => be16 h l :: words B
  | _ => []

/-- `wsum(B)`: the exact sum of the words of the padded sequence (R121). -/
def wsum (B : List Byte) : Nat := ((words (pad B)).map BitVec.toNat).sum

/-- `oc_add(a, b)`: `t = a + b` on 17 bits, then `t[15:0] + t[16]` (R122). -/
def ocAdd (a b : Word) : Word :=
  let t := a.toNat + b.toNat
  BitVec.ofNat 16 (t % 65536 + t / 65536)

/-- `cksum(B) = NOT16(fold(wsum(B)))` (R123). -/
def cksum (B : List Byte) : Word := not16 (BitVec.ofNat 16 (fold (wsum B)))

end Sys2Proof.Machine
end

