-- ==== Sys2Proof/Machine/ChecksumEngine.lean ====
section
/-! DEFINITION. The meanings of the four checksum engine commands (41_checksum_engine.md R125 to R128). None of them can fail
("no failure mode"): each ends with `R.STATUS.ERR <- 0`. -/

namespace Sys2Proof.Machine

/-- `CKINIT` (R125). -/
def execCkinit (s : State) : Host.Outcome State Fault Refusal :=
  succeed { s with ckacc := 0x0000#16, odd := false }

/-- `CKBYTE imm8` (R126). -/
def execCkbyte (imm8 : Byte) (s : State) : Host.Outcome State Fault Refusal :=
  succeed { s with ckacc := ocAdd s.ckacc (ckbyteAddend s.odd imm8), odd := !s.odd }

/-- `CKFIN` (R127). -/
def execCkfin (s : State) : Host.Outcome State Fault Refusal :=
  succeed { s with cksum := not16 s.ckacc }

/-- `CKVFY` (R128). -/
def execCkvfy (s : State) : Host.Outcome State Fault Refusal :=
  succeed { s with matched := decide (not16 s.ckacc = s.expect) }

end Sys2Proof.Machine
end

