-- ==== Sys2Proof/Machine/Frame.lean ====
section
/-! DEFINITION. The packet wire format (30_encoding.md R96 to R102) and the encoding function `enc` (42_packet_codec.md R150). -/

namespace Sys2Proof.Machine

/-- `ser(seq, ack, flags, len, ck, P)` (R97). R97 has `|P| = len`; DESIGN CHOICE (log 15): the function is total and lays the `len` it
is given whatever `|P|` is. -/
def ser (seq ack flags : Byte) (len ck : Word) (P : List Byte) : List Byte :=
  [seq, ack, flags, hi8 len, lo8 len, hi8 ck, lo8 ck] ++ P

/-- `F[i]` (R8). The fields of R98 are defined for `|F| >= 7` only and no command evaluates them on a shorter frame, so
the value past the end is never used (log 10). -/
def byteAt (F : List Byte) (i : Nat) : Byte := F.getD i 0x00#8

/-- `seq(F)` (R98). -/
def seqOf (F : List Byte) : Byte := byteAt F 0

/-- `ack(F)` (R98). -/
def ackOf (F : List Byte) : Byte := byteAt F 1

/-- `flags(F)` (R98). -/
def flagsOf (F : List Byte) : Byte := byteAt F 2

/-- `lenf(F) = be16(F[3], F[4])`, the declared length (R98). -/
def lenf (F : List Byte) : Word := be16 (byteAt F 3) (byteAt F 4)

/-- `ckf(F) = be16(F[5], F[6])`, the stored checksum (R98). -/
def ckf (F : List Byte) : Word := be16 (byteAt F 5) (byteAt F 6)

/-- `payl(F) = F[7 .. |F|-1]` (R98). -/
def payl (F : List Byte) : List Byte := F.drop Config.hdrLen

/-- `zck(F)`: `F` with the checksum field zeroed (R98). -/
def zck (F : List Byte) : List Byte := F.take 5 ++ [0x00#8, 0x00#8] ++ F.drop Config.hdrLen

/-- `wf(F)`: structurally well formed (R102). -/
def wfFrame (F : List Byte) : Bool :=
  decide (Config.hdrLen ≤ F.length) && decide (F.length ≤ Config.pktCap)
    && decide (F.length - Config.hdrLen = (lenf F).toNat)

/-- `valid(F)`: what VALIDATE reports (R102). -/
def validFrame (F : List Byte) : Bool := wfFrame F && decide (cksum (zck F) = ckf F)

/-- `enc(seq, ack, flags, P)` (R150): the checksum of the frame with a zero checksum field, put into that field.
DESIGN CHOICE (log 15): R150 does not define `enc` for `|P| > 1000`; this function is total, and for such a `P` its length field is `|P|`
modulo 65536. ENCODE never applies it there: it fails with `PayloadTooLarge` first (R152). -/
def enc (seq ack flags : Byte) (P : List Byte) : List Byte :=
  let n := BitVec.ofNat 16 P.length
  ser seq ack flags n (cksum (ser seq ack flags n 0x0000#16 P)) P

end Sys2Proof.Machine
end

