-- ==== Sys2Proof/Machine/Codec.lean ====
section
/-! DEFINITION. The meanings of the three packet codec commands (42_packet_codec.md R152, R156, R160). All checks precede all
writes, so a failing command has written its status bits and nothing else (60_exceptions.md R193). -/

namespace Sys2Proof.Machine

/-- The frame length `L = R.PKTLEN` (R156, R160). -/
def frameLen (s : State) : Nat := s.pktlen.toNat

/-- The three checks DECODE and VALIDATE begin with (R155, R156, R160), in the order R192: the first that fails, or none.
The length checks read no byte of `PKT`; the third reads `PKT[3]` and `PKT[4]` only. -/
def frameCheck (s : State) : Except Fault (Option Reason) :=
  if frameLen s > Config.pktCap then .ok (some .frameTooLong)
  else if frameLen s < Config.hdrLen then .ok (some .tooShort)
  else
    match readBytes .pkt s.pkt 3 2 with
    | .error f => .error f
    | .ok len =>
      if frameLen s - Config.hdrLen ≠ (be16 (byteAt len 0) (byteAt len 1)).toNat then .ok (some .lengthMismatch)
      else .ok none

/-- What DECODE writes on success (R156): the packet record, from the frame `F`. -/
def loadRecord (F : List Byte) (s : State) : State :=
  { s with
    seq := seqOf F
    ack := ackOf F
    flags := flagsOf F
    length := lenf F
    checksum := ckf F
    pay := Memory.writeAll s.pay 0 (payl F) }

/-- What ENCODE writes on success (R152): the frame `F`, its length and its checksum. -/
def storeFrame (F : List Byte) (s : State) : State :=
  { s with
    pkt := Memory.writeAll s.pkt 0 F
    pktlen := BitVec.ofNat 16 F.length
    checksum := ckf F }

/-- The verdict of VALIDATE: `VALID` and `ERR`, always both (R160). -/
def verdict (r : Reason) (s : State) : Host.Outcome State Fault Refusal :=
  .next (report r { s with valid := decide (r = .noFailure) })

/-- `ENCODE` (R152). -/
def execEncode (s : State) : Host.Outcome State Fault Refusal :=
  if s.length.toNat > Config.maxPayload then fail .payloadTooLarge s
  else
    match readBytes .pay s.pay 0 s.length.toNat with
    | .error f => .fault f
    | .ok P => succeed (storeFrame (enc s.seq s.ack s.flags P) s)

/-- `DECODE` (R156). It does not check the checksum (R157). -/
def execDecode (s : State) : Host.Outcome State Fault Refusal :=
  match frameCheck s with
  | .error f => .fault f
  | .ok (some r) => fail r s
  | .ok none =>
    match readBytes .pkt s.pkt 0 (frameLen s) with
    | .error f => .fault f
    | .ok F => succeed (loadRecord F s)

/-- `VALIDATE` (R160). The checksum field is zeroed on a copy; `PKT` is not written. -/
def execValidate (s : State) : Host.Outcome State Fault Refusal :=
  match frameCheck s with
  | .error f => .fault f
  | .ok (some r) => verdict r s
  | .ok none =>
    match readBytes .pkt s.pkt 0 (frameLen s) with
    | .error f => .fault f
    | .ok F => if cksum (zck F) = ckf F then verdict .noFailure s else verdict .checksumMismatch s

end Sys2Proof.Machine
end

