-- ==== Sys2Proof/Machine/Dispatch.lean ====
section
/-! DEFINITION. The meaning of each command, one arm per constructor of `Instr` (30_encoding.md R92). -/

namespace Sys2Proof.Machine

def exec (i : Instr) (s : State) : Host.Outcome State Fault Refusal :=
  match i with
  | .ckinit => Sys2Proof.Machine.execCkinit s
  | .ckbyte imm8 => Sys2Proof.Machine.execCkbyte imm8 s
  | .ckfin => Sys2Proof.Machine.execCkfin s
  | .ckvfy => Sys2Proof.Machine.execCkvfy s
  | .encode => Sys2Proof.Machine.execEncode s
  | .decode => Sys2Proof.Machine.execDecode s
  | .validate => Sys2Proof.Machine.execValidate s

end Sys2Proof.Machine
end

