-- ==== Sys2Proof/Machine/HostPort.lean ====
section
/-! DEFINITION. The host port: the four host accesses (20_memory.md R62 to R68), the command a write to `CMD` starts
(10_state.md R26, 30_encoding.md R90, R94), and the reset input (70_reset_and_hazards.md R210). -/

namespace Sys2Proof.Machine

/-- The value a register reads as (R63): `CMD` as 0x0000, `STATUS` packed, an 8-bit register zero-extended (10_state.md R23). -/
def readReg (s : State) : Reg → Word
  | .cmd => 0x0000#16
  | .status => statusWord s
  | .seq => s.seq.setWidth 16
  | .ack => s.ack.setWidth 16
  | .flags => s.flags.setWidth 16
  | .length => s.length
  | .checksum => s.checksum
  | .pktlen => s.pktlen
  | .ckacc => s.ckacc
  | .cksum => s.cksum
  | .expect => s.expect

/-- A write of command word `cw` to `CMD` (R90): the command it encodes, or `IllegalCommand` (R94). -/
def runCommand (cw : Word) (s : State) : Host.Outcome State Fault Refusal :=
  match decode cw with
  | .ok i => exec i s
  | .error _ => fail .illegalCommand s

/-- A host write of `v` to a register (R65): a write to `CMD` executes a command, a write to a read-only register changes
nothing, an 8-bit register keeps `v[7:0]`. -/
def writeReg (r : Reg) (v : Word) (s : State) : Host.Outcome State Fault Refusal :=
  match r with
  | .cmd => runCommand v s
  | .status | .checksum | .ckacc | .cksum => .next s
  | .seq => .next { s with seq := lo8 v }
  | .ack => .next { s with ack := lo8 v }
  | .flags => .next { s with flags := lo8 v }
  | .length => .next { s with length := v }
  | .pktlen => .next { s with pktlen := v }
  | .expect => .next { s with expect := v }

/-- A read hands its value to the host and changes nothing in the block (R63, R66; log 3). -/
def deliver (v : ReadValue) (s : State) : State := { s with returned := s.returned ++ [v] }

/-- A host read of an existing buffer byte (R66): an unspecified one is a fault of the model. -/
def hostBufRead (space : BufSpace) (a : Nat) (s : State) : Host.Outcome State Fault Refusal :=
  match Memory.read (s.buffer space) a with
  | none => .fault (.unspecifiedByte space a)
  | some b => .next (deliver (.byte b) s)

/-- `RESET` (R210): the state of 10_state.md R42 whatever it was before. What the outside does next is not the block's
state and stays; the values returned belong to the run that ends (R226; log 6). -/
def resetBlock (s : State) : State := { State.reset with pending := s.pending }

/-- One event at the port. An access outside the spaces has no step (R68). -/
def perform (e : Event) (s : State) : Host.Outcome State Fault Refusal :=
  match e with
  | .regRead n =>
    match Reg.ofNumber? n with
    | none => .refused (.noSuchRegister n)
    | some r => .next (deliver (.word (readReg s r)) s)
  | .regWrite n v =>
    match Reg.ofNumber? n with
    | none => .refused (.noSuchRegister n)
    | some r => if v ≤ 0xFFFF then writeReg r (BitVec.ofNat 16 v) s else .refused (.datumTooWide v)
  | .bufRead space a =>
    if a < space.capacity then hostBufRead space a s else .refused (.noSuchOffset space a)
  | .bufWrite space a v =>
    if a < space.capacity then
      if v ≤ 0xFF then .next (s.setBuffer space (Memory.write (s.buffer space) a (BitVec.ofNat 8 v)))
      else .refused (.datumTooWide v)
    else .refused (.noSuchOffset space a)
  | .reset => .next (resetBlock s)

/-- No access is pending: the block is idle and nothing changes (20_memory.md R62, 70_reset_and_hazards.md R226; log 2). -/
def idle (s : State) : Host.Outcome State Fault Refusal := .next s

end Sys2Proof.Machine
end

