-- ==== Sys2Proof/Machine/Step.lean ====
section
/-! DEFINITION. One step: the next pending event, performed to completion (00_scope.md R4, 20_memory.md R62, R73). -/

namespace Sys2Proof.Machine

/-- The next event is taken from `pending` and performed; with none pending the block is idle (log 1, log 2). -/
def step (s : State) : Host.Outcome State Fault Refusal :=
  match s.pending with
  | [] => idle s
  | e :: rest => perform e { s with pending := rest }

/-- `s` with the host about to write the command word of `nbits` bits of `w` to `CMD` (10_state.md R21: a command word arrives as the
datum of that write; log 14). -/
def State.withFetchWord (s : State) (nbits w : Nat) : State :=
  { s with pending := .regWrite Reg.cmd.number (w % 2 ^ nbits % 65536) :: s.pending }

end Sys2Proof.Machine
end

