-- ==== Sys2Proof/Machine/Script.lean ====
section
/-! DEFINITION. Host scripts (30_encoding.md R103 to R105): the script lines as events, and the three abbreviations, each of which
"expands to plain lines and adds no behaviour". -/

namespace Sys2Proof.Machine

/-- `WR <reg>, <v>` (R104). -/
def wr (r : Reg) (v : Word) : Event := .regWrite r.number v.toNat

/-- `RD <reg>` (R104). -/
def rd (r : Reg) : Event := .regRead r.number

/-- `WB <space>[<a>], <v>` (R104). -/
def wb (space : BufSpace) (a : Nat) (v : Byte) : Event := .bufWrite space a v.toNat

/-- `RB <space>[<a>]` (R104). -/
def rb (space : BufSpace) (a : Nat) : Event := .bufRead space a

/-- A command line: "a write of its command word to `CMD`" (R104). -/
def command (i : Instr) : Event := wr .cmd (encode i)

/-- `WB space[a], b0`, `WB space[a + 1], b1` and so on. -/
def wbAll (space : BufSpace) : Nat → List Byte → List Event
  | _, [] => []
  | a, b :: bs => wb space a b :: wbAll space (a + 1) bs

/-- `LOADPAY B` (R105). For `|B| > 65535`, which `PAY` cannot hold, the length datum is `|B|` modulo 65536 (log 15). -/
def loadPay (B : List Byte) : List Event := wbAll .pay 0 B ++ [wr .length (BitVec.ofNat 16 B.length)]

/-- `LOADPKT B` (R105). For `|B| > 65535`, which `PKT` cannot hold, the length datum is `|B|` modulo 65536 (log 15). -/
def loadPkt (B : List Byte) : List Event := wbAll .pkt 0 B ++ [wr .pktlen (BitVec.ofNat 16 B.length)]

/-- `CKSTREAM B` (R105). -/
def ckStream (B : List Byte) : List Event := command .ckinit :: B.map fun b => command (.ckbyte b)

end Sys2Proof.Machine
end

