-- ==== Sys2Proof/Safety.lean ====
section
/-! DEFINITION. What claims about the machine are stated in: the invariant every step keeps, the frame a buffer holds, the
command an event starts, and the byte stream the checksum engine has absorbed. -/

namespace Sys2Proof.Machine

/-- The bytes of `B` stand at offsets 0 to `|B| - 1` of the buffer, all specified (10_state.md R24, R25, R42). -/
abbrev Memory.Holds (m : Memory) (B : List Byte) : Prop := ∀ i, i < B.length → Memory.read m i = B[i]?

/-- The invariant of the machine: `STATUS.ERR` is in 0 to 6 (10_state.md R45 (a)), and each buffer is in its canonical form and lists
no offset outside its space (20_memory.md R60). -/
abbrev State.Inv (s : State) : Prop :=
  s.err.toNat ≤ 6 ∧ Memory.wf s.pay = true ∧ Memory.within Config.payCap s.pay = true
    ∧ Memory.wf s.pkt = true ∧ Memory.within Config.pktCap s.pkt = true

/-- The event is a write of a 16-bit word to `CMD` (30_encoding.md R90). -/
def Event.commandWord? : Event → Option Word
  | .regWrite n v => if n = Reg.cmd.number ∧ v ≤ 0xFFFF then some (BitVec.ofNat 16 v) else none
  | .regRead _ | .bufRead _ _ | .bufWrite _ _ _ | .reset => none

/-- The command the event starts, if it is the write of a legal command word to `CMD` (R92). -/
def Event.command? (e : Event) : Option Instr :=
  match e.commandWord? with
  | none => none
  | some cw =>
    match decode cw with
    | .ok i => some i
    | .error _ => none

/-- The bytes absorbed since the most recent CKINIT or reset, after one more event (41_checksum_engine.md R129): CKINIT and
`RESET` start over, CKBYTE appends its byte, every other event leaves the stream alone. -/
def absorb (B : List Byte) (e : Event) : List Byte :=
  match e.command? with
  | some .ckinit => []
  | some (.ckbyte b) => B ++ [b]
  | some .ckfin | some .ckvfy | some .encode | some .decode | some .validate => B
  | none => if e = .reset then [] else B

/-- The stream state is that of the byte sequence `B` (R129): `CKACC = fold(wsum(B))` and `ODD = |B| mod 2`. -/
abbrev State.StreamOf (B : List Byte) (s : State) : Prop :=
  s.ckacc.toNat = fold (wsum B) ∧ s.odd = decide (B.length % 2 = 1)

/-- A run is safe when it neither faults nor is refused: it ends in a state. -/
def endState? {σ φ ρ : Type} : Host.Outcome σ φ ρ → Option σ
  | .next s => some s
  | .fault _ | .refused _ => none

end Sys2Proof.Machine
end

