-- ==== Sys2Proof/WellFormed.lean ====
section
/-! DEFINITION. Well-formed commands and well-formed events. A command is well formed by its type: the one operand is a
byte (30_encoding.md R91). An event is well formed when it is an access the block has (20_memory.md R68). -/

namespace Sys2Proof

/-- Every command is well formed: format `N` has no operand and format `B` admits every byte (R91). -/
def Instr.wf : Instr → Bool
  | .ckinit | .ckbyte _ | .ckfin | .ckvfy | .encode | .decode | .validate => true

/-- The event lies inside the spaces: register numbers 0 to 10, offsets below the buffer's capacity, a register datum of
16 bits, a buffer datum of 8 bits (R63 to R68). -/
def Machine.Event.wf : Machine.Event → Bool
  | .regRead n => n < Config.nReg
  | .regWrite n v => n < Config.nReg && v ≤ 0xFFFF
  | .bufRead space a => a < space.capacity
  | .bufWrite space a v => a < space.capacity && v ≤ 0xFF
  | .reset => true

end Sys2Proof
end

