-- ==== Sys2Proof/Certificates/Slice0/Obligations.lean ====
section
/-! DEFINITION. The statements for the provers. Each docstring names the rules of spec/ it formalises. `{ s with … }` names every field a
step may change, so it is also the frame: every other register, flag and buffer is as before. -/

open Sys2Proof Sys2Proof.Machine

/-! Encoding of the command words (30_encoding.md). -/

/-- Nine words of 95_test_vectors.md 2.5 decode as that table says, and three that it calls illegal are rejected. The names and payloads of the
rejections, `unassignedOp` and `operandNotZero`, are the model's choice (DESIGN CHOICE, log 11); the spec says only that the words are
illegal. A sanity statement. -/
def Obligations.SpecWordsDecodeAsTheTableSays : Prop :=
  decode 0x0100#16 = .ok .ckinit ∧ decode 0x0200#16 = .ok (.ckbyte 0x00#8) ∧ decode 0x0256#16 = .ok (.ckbyte 0x56#8)
    ∧ decode 0x02FF#16 = .ok (.ckbyte 0xFF#8) ∧ decode 0x0300#16 = .ok .ckfin ∧ decode 0x0400#16 = .ok .ckvfy
    ∧ decode 0x1000#16 = .ok .encode ∧ decode 0x1100#16 = .ok .decode ∧ decode 0x1200#16 = .ok .validate
    ∧ decode 0x0000#16 = .error (.unassignedOp 0x00#8) ∧ decode 0x1180#16 = .error (.operandNotZero 0x11#8 0x80#8)
    ∧ decode 0xFFFF#16 = .error (.unassignedOp 0xFF#8)

/-- Decoding and encoding are inverse to each other, over every well-formed command and every legal word (R92, R93, R103). -/
def Obligations.DecodeAndEncodeAreInverse : Prop :=
  (∀ i : Instr, i.wf = true → decode (encode i) = .ok i) ∧ (∀ (cw : Word) (i : Instr), decode cw = .ok i → encode i = cw)

/-- R95: of the 65536 command words exactly 262 are legal, the six format `N` words and the 256 words of CKBYTE; every other
word, in every state, writes `ERR <- 6` and nothing else (R94). -/
def Obligations.LegalWordsAreThe262 : Prop :=
  (∀ cw : Word, (∃ i, decode cw = .ok i) ↔
    cw ∈ [0x0100#16, 0x0300#16, 0x0400#16, 0x1000#16, 0x1100#16, 0x1200#16] ∨ (0x0200 ≤ cw.toNat ∧ cw.toNat ≤ 0x02FF))
  ∧ ((List.range 65536).filter fun n => match decode (BitVec.ofNat 16 n) with | .ok _ => true | .error _ => false).length = 262
  ∧ ∀ (cw : Word) (s : State), (¬ ∃ i, decode cw = .ok i) → runCommand cw s = .next { s with err := 6 }

/-- R94: the write to `CMD` of a word that is none of the legal ones sets `STATUS.ERR` to 6 and changes nothing else; the next
access is accepted as usual. -/
def Obligations.IllegalWordOnlySetsErr : Prop :=
  ∀ (s : State) (v : Nat) (rest : List Event), v ≤ 0xFFFF → s.pending = .regWrite 0 v :: rest →
    v ∉ [0x0100, 0x0300, 0x0400, 0x1000, 0x1100, 0x1200] → ¬ (0x0200 ≤ v ∧ v ≤ 0x02FF) →
    step s = .next { s with pending := rest, err := 6 }

/-! The step and the host port (20_memory.md). -/

/-- A step whose event is the write of a legal command word to `CMD` is `exec` of the command, on the state the event has been
taken from (R21, R65, R90); in the words of `withFetchWord`, it is `exec` of the command on the state itself. -/
def Obligations.StepRunsTheDecodedCommand : Prop :=
  (∀ (s : State) (v : Nat) (rest : List Event) (i : Instr), v ≤ 0xFFFF → s.pending = .regWrite 0 v :: rest →
    decode (BitVec.ofNat 16 v) = .ok i → step s = exec i { s with pending := rest })
  ∧ ∀ (s : State) (nbits w : Nat) (i : Instr), decodeTableWord nbits w = some i → step (s.withFetchWord nbits w) = exec i s

/-- With no event pending a step changes nothing: the model's choice of log 2, after R62 ("Between two accesses nothing in the block
changes"). -/
def Obligations.IdleStepChangesNothing : Prop :=
  ∀ s : State, s.pending = [] → step s = .next s

/-- R63: what `RegRead(n)` returns for every `n` in 0 to 10, and that it changes nothing in the block; read twice, the same value
twice. (`returned` is the model's list of the values the host has been given, log 3.) -/
def Obligations.RegReadReturnsTheRegister : Prop :=
  ∀ (s : State) (n : Nat) (rest : List Event), n ≤ 10 →
    ∃ w : Word,
      (∀ p, s.pending = .regRead n :: p → step s = .next { s with pending := p, returned := s.returned ++ [.word w] })
      ∧ (s.pending = .regRead n :: .regRead n :: rest →
          Host.Core.run core 2 s = .next { s with pending := rest, returned := s.returned ++ [.word w, .word w] })
      ∧ (n = 0 → w = 0x0000#16)
      ∧ (n = 1 → w.toNat = s.err.toNat + 16 * s.valid.toNat + 32 * s.matched.toNat + 64 * s.odd.toNat)
      ∧ (n = 2 → w.toNat = s.seq.toNat) ∧ (n = 3 → w.toNat = s.ack.toNat) ∧ (n = 4 → w.toNat = s.flags.toNat)
      ∧ (n = 5 → w = s.length) ∧ (n = 6 → w = s.checksum) ∧ (n = 7 → w = s.pktlen) ∧ (n = 8 → w = s.ckacc)
      ∧ (n = 9 → w = s.cksum) ∧ (n = 10 → w = s.expect)

/-- R65: `RegWrite(n, v)` for every `n` in 0 to 10 and every 16-bit `v`. A write to `CMD` executes the command `v` encodes; a write to
`STATUS`, `CHECKSUM`, `CKACC` or `CKSUM` changes nothing; `SEQ`, `ACK`, `FLAGS` take `v[7:0]`; `LENGTH`, `PKTLEN`, `EXPECT` take `v`; an `RW` write
changes that register only. -/
def Obligations.RegWriteStoresRunsOrIsIgnored : Prop :=
  ∀ (s : State) (n v : Nat) (rest : List Event), v ≤ 0xFFFF → s.pending = .regWrite n v :: rest →
    (n = 0 → ∀ i, decode (BitVec.ofNat 16 v) = .ok i → step s = exec i { s with pending := rest })
    ∧ (n = 0 → (∀ i, decode (BitVec.ofNat 16 v) ≠ .ok i) → step s = .next { s with pending := rest, err := 6 })
    ∧ (n = 1 ∨ n = 6 ∨ n = 8 ∨ n = 9 → step s = .next { s with pending := rest })
    ∧ (n = 2 → step s = .next { s with pending := rest, seq := BitVec.ofNat 8 (v % 256) })
    ∧ (n = 3 → step s = .next { s with pending := rest, ack := BitVec.ofNat 8 (v % 256) })
    ∧ (n = 4 → step s = .next { s with pending := rest, flags := BitVec.ofNat 8 (v % 256) })
    ∧ (n = 5 → step s = .next { s with pending := rest, length := BitVec.ofNat 16 v })
    ∧ (n = 7 → step s = .next { s with pending := rest, pktlen := BitVec.ofNat 16 v })
    ∧ (n = 10 → step s = .next { s with pending := rest, expect := BitVec.ofNat 16 v })

/-- R66: `BufRead(space, a)` inside the space returns the byte and changes nothing in the block; an unspecified byte is a fault of
the model. -/
def Obligations.BufReadReturnsTheByte : Prop :=
  ∀ (s : State) (space : BufSpace) (a : Nat) (rest : List Event), a < space.capacity → s.pending = .bufRead space a :: rest →
    (∀ b, Memory.read (s.buffer space) a = some b → step s = .next { s with pending := rest, returned := s.returned ++ [.byte b] })
    ∧ (Memory.read (s.buffer space) a = none → step s = .fault (.unspecifiedByte space a))

/-- R67: `BufWrite(space, a, v)` inside the space: `space[a] <- v`, and nothing else changes; `PKTLEN`, `LENGTH` and `STATUS` do not follow.
A specified byte stays specified over every later step but `RESET`. -/
def Obligations.BufWriteStoresTheByte : Prop :=
  (∀ (s : State) (space : BufSpace) (a v : Nat) (rest : List Event), a < space.capacity → v ≤ 0xFF →
    s.pending = .bufWrite space a v :: rest →
    ∃ t, step s = .next t ∧ t = { s with pending := rest, pay := t.pay, pkt := t.pkt }
      ∧ Memory.read (t.buffer space) a = some (BitVec.ofNat 8 v)
      ∧ (∀ b, b ≠ a → Memory.read (t.buffer space) b = Memory.read (s.buffer space) b)
      ∧ (∀ other, other ≠ space → t.buffer other = s.buffer other))
  ∧ ∀ (s t : State) (space : BufSpace) (a : Nat), s.pending.head? ≠ some .reset → step s = .next t →
    Memory.read (s.buffer space) a ≠ none → Memory.read (t.buffer space) a ≠ none

/-- R68: an access outside the spaces is refused, and no other access is. -/
def Obligations.RefusedExactlyOutsideTheSpaces : Prop :=
  ∀ (s : State) (e : Event) (rest : List Event), s.pending = e :: rest →
    ((∃ r, step s = .refused r) ↔
      (∃ n, 10 < n ∧ (e = .regRead n ∨ ∃ v, e = .regWrite n v)) ∨ (∃ n v, 0xFFFF < v ∧ e = .regWrite n v)
        ∨ (∃ a, 999 < a ∧ (e = .bufRead .pay a ∨ ∃ v, e = .bufWrite .pay a v))
        ∨ (∃ a, 1006 < a ∧ (e = .bufRead .pkt a ∨ ∃ v, e = .bufWrite .pkt a v))
        ∨ (∃ space a v, 0xFF < v ∧ e = .bufWrite space a v))

/-- The block always accepts the next access (R194, R226, R227): a step with an in-range event answers a next state, or it faults because a
buffer byte inside its space is unspecified; with every buffer byte specified it always answers a next state. -/
def Obligations.InRangeEventsAlwaysStep : Prop :=
  (∀ (s : State) (e : Event) (rest : List Event), s.pending = e :: rest → e.wf = true →
    (∃ t, step s = .next t) ∨
      ∃ space a, step s = .fault (.unspecifiedByte space a) ∧ a < space.capacity ∧ Memory.read (s.buffer space) a = none)
  ∧ ∀ (s : State) (e : Event) (rest : List Event), s.pending = e :: rest → e.wf = true →
    (∀ space a, a < BufSpace.capacity space → Memory.read (s.buffer space) a ≠ none) → ∃ t, step s = .next t

/-- A read returns the value of the latest earlier write (R73), for every buffer byte and every `RW` register: the value as the
register holds it (R23). -/
def Obligations.ReadSeesTheLatestWrite : Prop :=
  (∀ (s : State) (space : BufSpace) (a v : Nat) (rest : List Event), a < space.capacity → v ≤ 0xFF →
    s.pending = .bufWrite space a v :: .bufRead space a :: rest →
    ∃ t : State, Host.Core.run core 2 s = .next t ∧ t.returned = s.returned ++ [.byte (BitVec.ofNat 8 v)] ∧ t.pending = rest)
  ∧ ∀ (s : State) (n v : Nat) (rest : List Event), n ∈ [2, 3, 4, 5, 7, 10] → v ≤ 0xFFFF →
    s.pending = .regWrite n v :: .regRead n :: rest →
    ∃ t : State, Host.Core.run core 2 s = .next t ∧ t.pending = rest
      ∧ t.returned = s.returned ++ [.word (BitVec.ofNat 16 (if n ≤ 4 then v % 256 else v))]

/-- R105: `LOADPKT` and `LOADPAY` write their bytes from offset 0 up, then the length register, and nothing else. -/
def Obligations.LoadAbbreviationsFillTheBuffer : Prop :=
  (∀ (s : State) (B : List Byte) (rest : List Event), B.length ≤ 1007 → s.pending = loadPkt B ++ rest →
    ∃ t : State, Host.Core.run core (B.length + 1) s = .next t
      ∧ t = { s with pending := rest, pkt := t.pkt, pktlen := BitVec.ofNat 16 B.length }
      ∧ Memory.Holds t.pkt B ∧ ∀ a, B.length ≤ a → Memory.read t.pkt a = Memory.read s.pkt a)
  ∧ ∀ (s : State) (B : List Byte) (rest : List Event), B.length ≤ 1000 → s.pending = loadPay B ++ rest →
    ∃ t : State, Host.Core.run core (B.length + 1) s = .next t
      ∧ t = { s with pending := rest, pay := t.pay, length := BitVec.ofNat 16 B.length }
      ∧ Memory.Holds t.pay B ∧ ∀ a, B.length ≤ a → Memory.read t.pay a = Memory.read s.pay a

/-! Reset (70_reset_and_hazards.md, 10_state.md R42). -/

/-- R42: the reset state. Every register and status field is 0 and every byte of `PAY` and `PKT` is unspecified. -/
def Obligations.ResetValuesAreZeroAndBuffersUnspecified : Prop :=
  statusWord State.reset = 0x0000#16 ∧ State.reset.seq = 0x00#8 ∧ State.reset.ack = 0x00#8 ∧ State.reset.flags = 0x00#8
    ∧ State.reset.length = 0x0000#16 ∧ State.reset.checksum = 0x0000#16 ∧ State.reset.pktlen = 0x0000#16
    ∧ State.reset.ckacc = 0x0000#16 ∧ State.reset.cksum = 0x0000#16 ∧ State.reset.expect = 0x0000#16
    ∧ ∀ a, Memory.read State.reset.pay a = none ∧ Memory.read State.reset.pkt a = none

/-- R210: whatever the state was, `RESET` puts every register at 0 and makes every buffer byte unspecified. -/
def Obligations.ResetEventForgetsEverything : Prop :=
  ∀ (s : State) (rest : List Event), s.pending = .reset :: rest →
    ∃ t, step s = .next t ∧ t.pending = rest
      ∧ t.err = 0 ∧ t.valid = false ∧ t.matched = false ∧ t.odd = false ∧ t.seq = 0 ∧ t.ack = 0 ∧ t.flags = 0
      ∧ t.length = 0 ∧ t.checksum = 0 ∧ t.pktlen = 0 ∧ t.ckacc = 0 ∧ t.cksum = 0 ∧ t.expect = 0
      ∧ ∀ a, Memory.read t.pay a = none ∧ Memory.read t.pkt a = none

/-! The checksum function (41_checksum_engine.md R120 to R132). -/

/-- R121: `wsum(B)` is the sum over all offsets `k` of `B[k] * 256` for even `k` and `B[k]` for odd `k`. -/
def Obligations.WordSumByOffsets : Prop :=
  ∀ B : List Byte, wsum B = ((List.range B.length).map fun k => (byteAt B k).toNat * (if k % 2 = 0 then 256 else 1)).sum

/-- R122: `oc_add` in its two forms, its range, that no second carry occurs, that it is `fold` of the sum, commutative and
associative. -/
def Obligations.OcAddIsFoldOfTheSum : Prop :=
  (∀ a b : Word, (ocAdd a b).toNat = (if a.toNat + b.toNat ≤ 0xFFFF then a.toNat + b.toNat else a.toNat + b.toNat - 0xFFFF)
    ∧ (0xFFFF < a.toNat + b.toNat → (a.toNat + b.toNat) % 65536 ≤ 0xFFFE)
    ∧ (ocAdd a b).toNat = fold (a.toNat + b.toNat) ∧ ocAdd a b = ocAdd b a)
  ∧ ∀ a b d : Word, ocAdd (ocAdd a b) d = ocAdd a (ocAdd b d)

/-- R124: the closed form of `fold` and the corner values of `cksum`. -/
def Obligations.FoldClosedFormAndChecksumCorners : Prop :=
  (∀ x : Nat, fold x = if x = 0 then 0 else (x - 1) % 65535 + 1)
  ∧ (∀ x : Nat, fold x = 0xFFFF ↔ 0 < x ∧ 65535 ∣ x)
  ∧ cksum [] = 0xFFFF#16
  ∧ (∀ B : List Byte, cksum B = 0xFFFF#16 ↔ ∀ b ∈ B, b = 0x00#8)
  ∧ (∀ B : List Byte, cksum B = 0x0000#16 ↔ 0 < wsum B ∧ 65535 ∣ wsum B)
  ∧ ∀ (B : List Byte) (k : Nat), cksum (B ++ List.replicate k 0x00#8) = cksum B

/-- R130: the arithmetic laws of the engine. -/
def Obligations.EngineArithmeticLaws : Prop :=
  (∀ a b d : Word, ocAdd a b = ocAdd b a ∧ ocAdd (ocAdd a b) d = ocAdd a (ocAdd b d)
    ∧ (ocAdd (ocAdd a b) d).toNat = fold (a.toNat + b.toNat + d.toNat) ∧ ocAdd a 0x0000#16 = a)
  ∧ (∀ a : Word, a ≠ 0x0000#16 → ocAdd a 0xFFFF#16 = a) ∧ ocAdd 0x0000#16 0xFFFF#16 = 0xFFFF#16
  ∧ (∀ B C : List Byte, (words (pad B)).Perm (words (pad C)) → cksum B = cksum C)
  ∧ cksum [0x01#8, 0x00#8] = 0xFEFF#16 ∧ cksum [0x00#8, 0x01#8] = 0xFFFE#16

/-- R132: flipping one bit of one byte changes the checksum; adding 1 to one word and subtracting 1 from another does not. -/
def Obligations.SingleBitFlipChangesTheChecksum : Prop :=
  (∀ (B : List Byte) (k j : Nat), k < B.length → j < 8 → cksum (B.set k (byteAt B k ^^^ (1#8 <<< j))) ≠ cksum B)
  ∧ cksum [0x12#8, 0x34#8, 0x56#8, 0x79#8] = cksum [0x12#8, 0x35#8, 0x56#8, 0x78#8]

/-! The engine commands (41_checksum_engine.md R125 to R134). -/

/-- R125: `CKINIT`. -/
def Obligations.CkinitClearsTheStream : Prop :=
  decode 0x0100#16 = .ok .ckinit ∧ ∀ s : State, exec .ckinit s = .next { s with ckacc := 0x0000#16, odd := false, err := 0 }

/-- R126: `CKBYTE`, for every byte in every state. Once `CKACC` is non-zero no CKBYTE makes it zero; the byte 0x00 leaves it
unchanged. -/
def Obligations.CkbyteAbsorbsOneByte : Prop :=
  ∀ (b : Byte) (s : State), decode (0x0200#16 + b.setWidth 16) = .ok (.ckbyte b) ∧
    ∃ t, exec (.ckbyte b) s = .next t ∧ t = { s with ckacc := t.ckacc, odd := !s.odd, err := 0 }
      ∧ (∀ a, a = (if s.odd then b.toNat else b.toNat * 256) →
          t.ckacc.toNat = if s.ckacc.toNat + a ≤ 0xFFFF then s.ckacc.toNat + a else s.ckacc.toNat + a - 0xFFFF)
      ∧ (s.ckacc ≠ 0 → t.ckacc ≠ 0) ∧ (b = 0x00#8 → t.ckacc = s.ckacc)

/-- R127: `CKFIN`. -/
def Obligations.CkfinDeliversTheComplement : Prop :=
  decode 0x0300#16 = .ok .ckfin ∧
    ∀ s : State, exec .ckfin s = .next { s with cksum := BitVec.ofNat 16 (0xFFFF - s.ckacc.toNat), err := 0 }

/-- R128: `CKVFY`. A mismatch is the result `MATCH = 0`, not an error. -/
def Obligations.CkvfyComparesWithExpect : Prop :=
  decode 0x0400#16 = .ok .ckvfy ∧
    ∀ s : State, ∃ m : Bool, exec .ckvfy s = .next { s with matched := m, err := 0 } ∧ (m = true ↔ 0xFFFF - s.ckacc.toNat = s.expect.toNat)

/-- R129: the stream theorem. Over any run of events, whatever stands between the CKBYTE commands, the stream state is that of the
bytes absorbed since the last CKINIT or reset; CKFIN then delivers their checksum and CKVFY compares it with `EXPECT`. -/
def Obligations.StreamStateFollowsTheBytes : Prop :=
  (∀ (es rest : List Event) (B : List Byte) (s t : State), s.pending = es ++ rest → State.StreamOf B s →
    Host.Core.run core es.length s = .next t → State.StreamOf (es.foldl absorb B) t ∧ t.pending = rest)
  ∧ (∀ p : List Event, State.StreamOf [] { State.reset with pending := p })
  ∧ ∀ (B : List Byte) (s : State), State.StreamOf B s →
    exec .ckfin s = .next { s with cksum := cksum B, err := 0 }
    ∧ exec .ckvfy s = .next { s with matched := decide (cksum B = s.expect), err := 0 }

/-- R133: CKFIN does not end the stream. After the bytes `B`, a CKFIN, the bytes `D` and a CKFIN, the second result is the checksum of
`B ++ D`, whatever the parity of `|B|`. -/
def Obligations.StreamContinuesAfterCkfin : Prop :=
  ∀ (B D : List Byte) (s : State) (rest : List Event), State.StreamOf B s →
    s.pending = command .ckfin :: (D.map fun b => command (.ckbyte b)) ++ command .ckfin :: rest →
    ∃ t u : State, step s = .next t ∧ t.cksum = cksum B ∧ Host.Core.run core (D.length + 2) s = .next u ∧ u.cksum = cksum (B ++ D)
      ∧ u.pending = rest

/-- The first two rows of R13: from every state, the script for `calculate` leaves `cksum(B)` in `CKSUM`, and the script for `verify`
leaves `cksum(B) = expected` in `MATCH`, for a byte sequence of any length. -/
def Obligations.CalculateAndVerifyScripts : Prop :=
  (∀ (s : State) (B : List Byte) (rest : List Event), s.pending = ckStream B ++ command .ckfin :: rest →
    Host.Core.run core (B.length + 2) s = .next { s with
      pending := rest, ckacc := BitVec.ofNat 16 (fold (wsum B)), odd := decide (B.length % 2 = 1), cksum := cksum B, err := 0 })
  ∧ ∀ (s : State) (B : List Byte) (v : Word) (rest : List Event),
    s.pending = ckStream B ++ wr .expect v :: command .ckvfy :: rest →
    Host.Core.run core (B.length + 3) s = .next { s with
      pending := rest, ckacc := BitVec.ofNat 16 (fold (wsum B)), odd := decide (B.length % 2 = 1), expect := v
      matched := decide (cksum B = v), err := 0 }

/-! The wire format (30_encoding.md R96 to R98, 42_packet_codec.md R151). -/

/-- R97, R98: where each field stands in a frame, big-endian, and that extraction undoes serialisation. It covers a `len` that is not `|P|` too,
which R97 does not speak of (DESIGN CHOICE, log 15). -/
def Obligations.WireFormatFieldOffsets : Prop :=
  ∀ (seq ack flags : Byte) (len ck : Word) (P : List Byte),
    ser seq ack flags len ck P =
      [seq, ack, flags, BitVec.ofNat 8 (len.toNat / 256), BitVec.ofNat 8 (len.toNat % 256),
        BitVec.ofNat 8 (ck.toNat / 256), BitVec.ofNat 8 (ck.toNat % 256)] ++ P
    ∧ (ser seq ack flags len ck P).length = 7 + P.length
    ∧ ∀ F, F = ser seq ack flags len ck P →
        seqOf F = seq ∧ ackOf F = ack ∧ flagsOf F = flags ∧ lenf F = len ∧ ckf F = ck ∧ payl F = P
          ∧ zck F = ser seq ack flags len 0x0000#16 P

/-- R151: the words ENCODE sums. Words 0 to 2 come from the header; word 3 has the zero low checksum byte as its high byte, so from
there on the payload is shifted by one byte. -/
def Obligations.EncodedFrameWordSum : Prop :=
  ∀ (seq ack flags : Byte) (P : List Byte), P.length ≤ 1000 →
    wsum (ser seq ack flags (BitVec.ofNat 16 P.length) 0x0000#16 P) =
      (seq.toNat * 256 + ack.toNat) + (flags.toNat * 256 + P.length / 256) + P.length % 256 * 256 + wsum (0x00#8 :: P)

/-! The codec commands (42_packet_codec.md). -/

/-- R152: `ENCODE`. `PayloadTooLarge` when and only when `LENGTH > 1000`; otherwise, with the payload specified, the frame, its length and
its checksum, `PKT` above the frame unchanged; an unspecified payload byte is a fault of the model. -/
def Obligations.EncodeBuildsTheFrame : Prop :=
  decode 0x1000#16 = .ok .encode
  ∧ (∀ s : State, 1000 < s.length.toNat → exec .encode s = .next { s with err := 4 })
  ∧ (∀ (s : State) (P : List Byte), P.length = s.length.toNat → P.length ≤ 1000 → Memory.Holds s.pay P →
    ∃ (t : State) (c : Word), exec .encode s = .next t
      ∧ t = { s with pkt := t.pkt, pktlen := BitVec.ofNat 16 (7 + P.length), checksum := c, err := 0 }
      ∧ c = cksum ([s.seq, s.ack, s.flags, hi8 s.length, lo8 s.length, 0x00#8, 0x00#8] ++ P)
      ∧ (∀ a, a < 7 + P.length →
          Memory.read t.pkt a = ([s.seq, s.ack, s.flags, hi8 s.length, lo8 s.length, hi8 c, lo8 c] ++ P)[a]?)
      ∧ ∀ a, 7 + P.length ≤ a → Memory.read t.pkt a = Memory.read s.pkt a)
  ∧ ∀ (s : State) (a : Nat), s.length.toNat ≤ 1000 → a < s.length.toNat → Memory.read s.pay a = none →
    ∃ b, exec .encode s = .fault (.unspecifiedByte .pay b) ∧ b < s.length.toNat ∧ Memory.read s.pay b = none

/-- R154: after a successful ENCODE the packet record and the frame satisfy the Packet invariant. -/
def Obligations.EncodeEstablishesThePacketInvariant : Prop :=
  ∀ s t : State, exec .encode s = .next t → t.err = 0 →
    ∃ F : List Byte, F.length = t.pktlen.toNat ∧ Memory.Holds t.pkt F ∧ (payl F).length = t.length.toNat
      ∧ Memory.Holds t.pay (payl F) ∧ t.pktlen.toNat = 7 + t.length.toNat ∧ t.checksum = cksum (zck F) ∧ validFrame F = true

/-- R156: `DECODE`. The three failures in their order, each changing `ERR` only; on success the packet record from the frame of header
bytes `b0` to `b6` and payload `P`, `PAY` above the payload unchanged. The last clause is not R156 but R76: an unspecified
byte that DECODE reads is a fault of the model, in the model's form (DESIGN CHOICE, log 4). -/
def Obligations.DecodeUnpacksTheFrame : Prop :=
  decode 0x1100#16 = .ok .decode
  ∧ (∀ s : State, 1007 < s.pktlen.toNat → exec .decode s = .next { s with err := 5 })
  ∧ (∀ s : State, s.pktlen.toNat < 7 → exec .decode s = .next { s with err := 1 })
  ∧ (∀ (s : State) (h l : Byte), 7 ≤ s.pktlen.toNat → s.pktlen.toNat ≤ 1007 → Memory.read s.pkt 3 = some h →
    Memory.read s.pkt 4 = some l → s.pktlen.toNat - 7 ≠ h.toNat * 256 + l.toNat → exec .decode s = .next { s with err := 2 })
  ∧ (∀ (s : State) (b0 b1 b2 b3 b4 b5 b6 : Byte) (P : List Byte), s.pktlen.toNat = 7 + P.length → P.length ≤ 1000 →
    b3.toNat * 256 + b4.toNat = P.length → Memory.Holds s.pkt ([b0, b1, b2, b3, b4, b5, b6] ++ P) →
    ∃ t : State, exec .decode s = .next t
      ∧ t = { s with
          seq := b0, ack := b1, flags := b2, length := BitVec.ofNat 16 P.length
          checksum := BitVec.ofNat 16 (b5.toNat * 256 + b6.toNat), pay := t.pay, err := 0 }
      ∧ Memory.Holds t.pay P ∧ ∀ a, P.length ≤ a → Memory.read t.pay a = Memory.read s.pay a)
  ∧ ∀ s : State, 7 ≤ s.pktlen.toNat → s.pktlen.toNat ≤ 1007 →
    (Memory.read s.pkt 3 = none ∨ Memory.read s.pkt 4 = none
      ∨ ∃ h l a, Memory.read s.pkt 3 = some h ∧ Memory.read s.pkt 4 = some l ∧ s.pktlen.toNat - 7 = h.toNat * 256 + l.toNat
          ∧ a < s.pktlen.toNat ∧ Memory.read s.pkt a = none) →
    ∃ b, exec .decode s = .fault (.unspecifiedByte .pkt b) ∧ b < s.pktlen.toNat ∧ Memory.read s.pkt b = none

/-- R157: DECODE copies the stored checksum unchecked; afterwards `CHECKSUM = cksum(zck(frame))` exactly when the frame was valid. -/
def Obligations.DecodeDoesNotCheckTheChecksum : Prop :=
  ∀ (s : State) (F : List Byte), s.pktlen.toNat = F.length → Memory.Holds s.pkt F → wfFrame F = true →
    ∃ t, exec .decode s = .next t ∧ t.err = 0 ∧ t.checksum = ckf F ∧ (t.checksum = cksum (zck F) ↔ validFrame F = true)

/-- R158: after a successful DECODE, `LENGTH = PKTLEN - 7` and `LENGTH <= 1000`. -/
def Obligations.DecodedPayloadFits : Prop :=
  ∀ s t : State, exec .decode s = .next t → t.err = 0 → 7 ≤ t.pktlen.toNat ∧ t.length.toNat = t.pktlen.toNat - 7 ∧ t.length.toNat ≤ 1000

/-- R160: `VALIDATE`. The four failures in their order and the success, each writing `VALID` and `ERR` and nothing else; `VALID = 1` exactly
when `ERR = 0`, and exactly when the frame is valid. The last clause is not R160 but R76: an unspecified byte that VALIDATE reads is a fault of
the model, in the model's form (DESIGN CHOICE, log 4). -/
def Obligations.ValidateReportsTheVerdict : Prop :=
  decode 0x1200#16 = .ok .validate
  ∧ (∀ s : State, 1007 < s.pktlen.toNat → exec .validate s = .next { s with valid := false, err := 5 })
  ∧ (∀ s : State, s.pktlen.toNat < 7 → exec .validate s = .next { s with valid := false, err := 1 })
  ∧ (∀ (s : State) (h l : Byte), 7 ≤ s.pktlen.toNat → s.pktlen.toNat ≤ 1007 → Memory.read s.pkt 3 = some h →
    Memory.read s.pkt 4 = some l → s.pktlen.toNat - 7 ≠ h.toNat * 256 + l.toNat →
    exec .validate s = .next { s with valid := false, err := 2 })
  ∧ (∀ (s : State) (b0 b1 b2 b3 b4 b5 b6 : Byte) (P : List Byte), s.pktlen.toNat = 7 + P.length → P.length ≤ 1000 →
    b3.toNat * 256 + b4.toNat = P.length → Memory.Holds s.pkt ([b0, b1, b2, b3, b4, b5, b6] ++ P) →
    (cksum ([b0, b1, b2, b3, b4, 0x00#8, 0x00#8] ++ P) = be16 b5 b6 → exec .validate s = .next { s with valid := true, err := 0 })
    ∧ (cksum ([b0, b1, b2, b3, b4, 0x00#8, 0x00#8] ++ P) ≠ be16 b5 b6 → exec .validate s = .next { s with valid := false, err := 3 }))
  ∧ (∀ (s t : State) (F : List Byte), exec .validate s = .next t → (t.valid = true ↔ t.err = 0)
    ∧ (s.pktlen.toNat = F.length → Memory.Holds s.pkt F → (t.valid = true ↔ validFrame F = true)))
  ∧ ∀ s : State, 7 ≤ s.pktlen.toNat → s.pktlen.toNat ≤ 1007 →
    (Memory.read s.pkt 3 = none ∨ Memory.read s.pkt 4 = none
      ∨ ∃ h l a, Memory.read s.pkt 3 = some h ∧ Memory.read s.pkt 4 = some l ∧ s.pktlen.toNat - 7 = h.toNat * 256 + l.toNat
          ∧ a < s.pktlen.toNat ∧ Memory.read s.pkt a = none) →
    ∃ b, exec .validate s = .fault (.unspecifiedByte .pkt b) ∧ b < s.pktlen.toNat ∧ Memory.read s.pkt b = none

/-- R161: VALIDATE leaves the packet record and the buffers untouched, DECODE leaves `STATUS.VALID` untouched, and a DECODE after a VALIDATE that
gave `VALID = 1`, with no write to `PKT` or `PKTLEN` in between, cannot fail. -/
def Obligations.DecodeAfterValidVerdictSucceeds : Prop :=
  (∀ s t : State, exec .validate s = .next t → t = { s with valid := t.valid, err := t.err })
  ∧ (∀ s t : State, exec .decode s = .next t → t.valid = s.valid)
  ∧ ∀ s t u : State, exec .validate s = .next t → t.valid = true → u.pkt = t.pkt → u.pktlen = t.pktlen →
    ∃ v, exec .decode u = .next v ∧ v.err = 0

/-- R163: a frame ENCODE made passes VALIDATE, when nothing has written `PKT` or `PKTLEN` since. -/
def Obligations.EncodedFrameValidates : Prop :=
  ∀ s t u : State, exec .encode s = .next t → t.err = 0 → u.pkt = t.pkt → u.pktlen = t.pktlen →
    exec .validate u = .next { u with valid := true, err := 0 }

/-- R164: (a) DECODE after ENCODE gives back the packet record; done at once it changes nothing at all. (b) ENCODE after DECODE gives back the
frame except possibly its checksum field, and all of it exactly when the frame was valid. -/
def Obligations.EncodeDecodeRoundTrips : Prop :=
  (∀ s t u : State, exec .encode s = .next t → t.err = 0 → u.pkt = t.pkt → u.pktlen = t.pktlen →
    ∃ v, exec .decode u = .next v ∧ v.err = 0 ∧ v.seq = t.seq ∧ v.ack = t.ack ∧ v.flags = t.flags ∧ v.length = t.length
      ∧ v.checksum = t.checksum ∧ ∀ a, a < t.length.toNat → Memory.read v.pay a = Memory.read t.pay a)
  ∧ (∀ s t : State, s.Inv → exec .encode s = .next t → t.err = 0 → exec .decode t = .next t)
  ∧ ∀ (s t u : State) (F : List Byte), exec .decode s = .next t → t.err = 0 → s.pktlen.toNat = F.length → Memory.Holds s.pkt F →
    u.seq = t.seq → u.ack = t.ack → u.flags = t.flags → u.length = t.length → u.pay = t.pay →
    ∃ (v : State) (G : List Byte), exec .encode u = .next v ∧ v.err = 0 ∧ v.pktlen = s.pktlen ∧ G.length = F.length
      ∧ Memory.Holds v.pkt G ∧ (∀ i, i ≠ 5 → i ≠ 6 → G[i]? = F[i]?) ∧ ckf G = cksum (zck F) ∧ (G = F ↔ validFrame F = true)

/-- R165: a valid frame with one bit flipped, anywhere in it, is rejected: with `LengthMismatch` when the bit lies in the length field, with
`ChecksumMismatch` otherwise. Two flipped bits are not always rejected (the frames V21 and V23 of 95_test_vectors.md). -/
def Obligations.SingleBitCorruptionIsRejected : Prop :=
  (∀ (s : State) (F : List Byte) (k j : Nat) (m : Memory), s.pktlen.toNat = F.length → Memory.Holds s.pkt F → validFrame F = true →
    k < F.length → j < 8 → m = Memory.write s.pkt k (byteAt F k ^^^ (1#8 <<< j)) →
    exec .validate { s with pkt := m } = .next { s with pkt := m, valid := false, err := if k = 3 ∨ k = 4 then 2 else 3 })
  ∧ ∀ F : List Byte, F = [0x00#8, 0x00#8, 0x08#8, 0x00#8, 0x05#8, 0xEC#8, 0xF6#8, 0x01#8, 0x02#8, 0x03#8, 0x04#8, 0x05#8] →
    validFrame F = true ∧ validFrame ((F.set 8 (0x02#8 ^^^ 0x02#8)).set 10 (0x04#8 ^^^ 0x02#8)) = true

/-- R223: the streamed `verify` of a well-formed frame, its checksum field zeroed by the host and its stored checksum in `EXPECT`, gives the
verdict VALIDATE gives. -/
def Obligations.StreamedVerifyAgreesWithValidate : Prop :=
  ∀ (s : State) (F : List Byte) (rest : List Event), s.pktlen.toNat = F.length → Memory.Holds s.pkt F → wfFrame F = true →
    s.pending = ckStream (zck F) ++ wr .expect (ckf F) :: command .ckvfy :: rest →
    ∃ t u : State, Host.Core.run core (F.length + 3) s = .next t ∧ exec .validate s = .next u ∧ t.matched = u.valid

/-- The last column of R166, with R44: the codec commands leave no trace in the checksum engine, whatever their outcome. -/
def Obligations.CodecLeavesTheEngineAlone : Prop :=
  ∀ (s t : State) (i : Instr), i = .encode ∨ i = .decode ∨ i = .validate → exec i s = .next t →
    t.ckacc = s.ckacc ∧ t.odd = s.odd ∧ t.cksum = s.cksum ∧ t.matched = s.matched ∧ t.expect = s.expect

/-- R76: bytes a command does not read do not matter. ENCODE depends on `PAY[0..LENGTH-1]` only, and on no byte when `LENGTH > 1000`; DECODE and
VALIDATE depend on `PKT[0..PKTLEN-1]` only, and on no byte when a length check fails. -/
def Obligations.UnreadBytesDoNotMatter : Prop :=
  (∀ (s : State) (m : Memory),
    (s.length.toNat ≤ 1000 → ∀ a, a < s.length.toNat → Memory.read m a = Memory.read s.pay a) →
    (∀ f, exec .encode s = .fault f → exec .encode { s with pay := m } = .fault f)
    ∧ ∀ t, exec .encode s = .next t → exec .encode { s with pay := m } = .next { t with pay := m })
  ∧ ∀ (s : State) (m : Memory) (i : Instr), i = .decode ∨ i = .validate →
    (7 ≤ s.pktlen.toNat → s.pktlen.toNat ≤ 1007 → ∀ a, a < s.pktlen.toNat → Memory.read m a = Memory.read s.pkt a) →
    (∀ f, exec i s = .fault f → exec i { s with pkt := m } = .fault f)
    ∧ ∀ t, exec i s = .next t → exec i { s with pkt := m } = .next { t with pkt := m }

/-- R43: no command's behaviour depends on `ERR`, `VALID` or `MATCH`. Started with other values of these bits, a command ends the same way; `ERR` is
the same, and a bit the command does not write keeps its own value. -/
def Obligations.CommandsIgnoreTheStatusBits : Prop :=
  ∀ (i : Instr) (s : State) (e : BitVec 4) (v m : Bool),
    (∀ f, exec i s = .fault f → exec i { s with err := e, valid := v, matched := m } = .fault f)
    ∧ ∀ t, exec i s = .next t → exec i { s with err := e, valid := v, matched := m } = .next { t with
        valid := if i = .validate then t.valid else v, matched := if i = .ckvfy then t.matched else m }

/-- R71: every command but CKBYTE is idempotent. (The canonical form of the buffers is a premise: R71 is about states a run reaches.) -/
def Obligations.CommandsAreIdempotent : Prop :=
  ∀ (i : Instr) (s t : State), s.Inv → (∀ b, i ≠ .ckbyte b) → exec i s = .next t → exec i t = .next t

/-! The whole machine. -/

/-- Every step keeps the invariant: `ERR` in 0 to 6 (R45 (a)), each buffer in canonical form and inside its space (R60). -/
def Obligations.StepKeepsTheInvariant : Prop :=
  ∀ s t : State, s.Inv → step s = .next t → t.Inv

/-- The invariant holds at reset. -/
def Obligations.ResetSatisfiesTheInvariant : Prop := State.reset.Inv

/-- R28, R191: `ERR` always describes the most recent command word. A write to `CMD` overwrites it whatever it held, with a code 0 to 6; every
other access leaves it alone. -/
def Obligations.ErrDescribesTheLatestCommandWord : Prop :=
  ∀ (s : State) (e : Event) (rest : List Event), s.pending = e :: rest → e ≠ .reset →
    (e.commandWord? = none → ∀ t, step s = .next t → t.err = s.err)
    ∧ (e.commandWord? ≠ none → (∀ x, step { s with err := x } = step s) ∧ ∀ t, step s = .next t → t.err.toNat ≤ 6)

/-- R29, R30: only VALIDATE changes `VALID`, only CKVFY changes `MATCH`, only CKINIT and CKBYTE change `ODD`. -/
def Obligations.StatusBitsHaveOneWriter : Prop :=
  ∀ (s t : State) (e : Event) (rest : List Event), s.pending = e :: rest → e ≠ .reset → step s = .next t →
    (e.command? ≠ some .validate → t.valid = s.valid) ∧ (e.command? ≠ some .ckvfy → t.matched = s.matched)
    ∧ (e.command? ≠ some .ckinit → (∀ b, e.command? ≠ some (.ckbyte b)) → t.odd = s.odd)

/-- R31 to R40: who writes each register and buffer. -/
def Obligations.RegistersChangeOnlyByTheirWriters : Prop :=
  ∀ (s t : State) (e : Event) (rest : List Event), s.pending = e :: rest → e ≠ .reset → step s = .next t →
    (e.command? ≠ some .decode → (∀ v, e ≠ .regWrite 2 v) → t.seq = s.seq)
    ∧ (e.command? ≠ some .decode → (∀ v, e ≠ .regWrite 3 v) → t.ack = s.ack)
    ∧ (e.command? ≠ some .decode → (∀ v, e ≠ .regWrite 4 v) → t.flags = s.flags)
    ∧ (e.command? ≠ some .decode → (∀ v, e ≠ .regWrite 5 v) → t.length = s.length)
    ∧ (e.command? ≠ some .encode → e.command? ≠ some .decode → t.checksum = s.checksum)
    ∧ (e.command? ≠ some .encode → (∀ v, e ≠ .regWrite 7 v) → t.pktlen = s.pktlen)
    ∧ (e.command? ≠ some .ckinit → (∀ b, e.command? ≠ some (.ckbyte b)) → t.ckacc = s.ckacc)
    ∧ (e.command? ≠ some .ckfin → t.cksum = s.cksum)
    ∧ ((∀ v, e ≠ .regWrite 10 v) → t.expect = s.expect)
    ∧ (e.command? ≠ some .decode → (∀ a v, e ≠ .bufWrite .pay a v) → t.pay = s.pay)
    ∧ (e.command? ≠ some .encode → (∀ a v, e ≠ .bufWrite .pkt a v) → t.pkt = s.pkt)
    ∧ t.pending = rest
end

