-- ==== Sys2Proof/Laws/State.lean ====
section
/-! SUPPORT. The state record: one lemma per field per update, so that no later proof unfolds an update. -/

namespace Sys2Proof.Machine

/-! `report` (00_scope.md R11): the reason code and nothing else. -/

@[simp] theorem report_err (r : Reason) (s : State) : (report r s).err = r.code := rfl
@[simp] theorem report_valid (r : Reason) (s : State) : (report r s).valid = s.valid := rfl
@[simp] theorem report_matched (r : Reason) (s : State) : (report r s).matched = s.matched := rfl
@[simp] theorem report_odd (r : Reason) (s : State) : (report r s).odd = s.odd := rfl
@[simp] theorem report_seq (r : Reason) (s : State) : (report r s).seq = s.seq := rfl
@[simp] theorem report_ack (r : Reason) (s : State) : (report r s).ack = s.ack := rfl
@[simp] theorem report_flags (r : Reason) (s : State) : (report r s).flags = s.flags := rfl
@[simp] theorem report_length (r : Reason) (s : State) : (report r s).length = s.length := rfl
@[simp] theorem report_checksum (r : Reason) (s : State) : (report r s).checksum = s.checksum := rfl
@[simp] theorem report_pktlen (r : Reason) (s : State) : (report r s).pktlen = s.pktlen := rfl
@[simp] theorem report_ckacc (r : Reason) (s : State) : (report r s).ckacc = s.ckacc := rfl
@[simp] theorem report_cksum (r : Reason) (s : State) : (report r s).cksum = s.cksum := rfl
@[simp] theorem report_expect (r : Reason) (s : State) : (report r s).expect = s.expect := rfl
@[simp] theorem report_pay (r : Reason) (s : State) : (report r s).pay = s.pay := rfl
@[simp] theorem report_pkt (r : Reason) (s : State) : (report r s).pkt = s.pkt := rfl
@[simp] theorem report_pending (r : Reason) (s : State) : (report r s).pending = s.pending := rfl
@[simp] theorem report_returned (r : Reason) (s : State) : (report r s).returned = s.returned := rfl

/-! `deliver` (20_memory.md R63, R66): the value returned and nothing else. -/

@[simp] theorem deliver_err (v : ReadValue) (s : State) : (deliver v s).err = s.err := rfl
@[simp] theorem deliver_valid (v : ReadValue) (s : State) : (deliver v s).valid = s.valid := rfl
@[simp] theorem deliver_matched (v : ReadValue) (s : State) : (deliver v s).matched = s.matched := rfl
@[simp] theorem deliver_odd (v : ReadValue) (s : State) : (deliver v s).odd = s.odd := rfl
@[simp] theorem deliver_seq (v : ReadValue) (s : State) : (deliver v s).seq = s.seq := rfl
@[simp] theorem deliver_ack (v : ReadValue) (s : State) : (deliver v s).ack = s.ack := rfl
@[simp] theorem deliver_flags (v : ReadValue) (s : State) : (deliver v s).flags = s.flags := rfl
@[simp] theorem deliver_length (v : ReadValue) (s : State) : (deliver v s).length = s.length := rfl
@[simp] theorem deliver_checksum (v : ReadValue) (s : State) : (deliver v s).checksum = s.checksum := rfl
@[simp] theorem deliver_pktlen (v : ReadValue) (s : State) : (deliver v s).pktlen = s.pktlen := rfl
@[simp] theorem deliver_ckacc (v : ReadValue) (s : State) : (deliver v s).ckacc = s.ckacc := rfl
@[simp] theorem deliver_cksum (v : ReadValue) (s : State) : (deliver v s).cksum = s.cksum := rfl
@[simp] theorem deliver_expect (v : ReadValue) (s : State) : (deliver v s).expect = s.expect := rfl
@[simp] theorem deliver_pay (v : ReadValue) (s : State) : (deliver v s).pay = s.pay := rfl
@[simp] theorem deliver_pkt (v : ReadValue) (s : State) : (deliver v s).pkt = s.pkt := rfl
@[simp] theorem deliver_pending (v : ReadValue) (s : State) : (deliver v s).pending = s.pending := rfl
@[simp] theorem deliver_returned (v : ReadValue) (s : State) : (deliver v s).returned = s.returned ++ [v] := rfl

/-! `loadRecord` (42_packet_codec.md R156): the packet record. -/

@[simp] theorem loadRecord_err (F : List Byte) (s : State) : (loadRecord F s).err = s.err := rfl
@[simp] theorem loadRecord_valid (F : List Byte) (s : State) : (loadRecord F s).valid = s.valid := rfl
@[simp] theorem loadRecord_matched (F : List Byte) (s : State) : (loadRecord F s).matched = s.matched := rfl
@[simp] theorem loadRecord_odd (F : List Byte) (s : State) : (loadRecord F s).odd = s.odd := rfl
@[simp] theorem loadRecord_seq (F : List Byte) (s : State) : (loadRecord F s).seq = seqOf F := rfl
@[simp] theorem loadRecord_ack (F : List Byte) (s : State) : (loadRecord F s).ack = ackOf F := rfl
@[simp] theorem loadRecord_flags (F : List Byte) (s : State) : (loadRecord F s).flags = flagsOf F := rfl
@[simp] theorem loadRecord_length (F : List Byte) (s : State) : (loadRecord F s).length = lenf F := rfl
@[simp] theorem loadRecord_checksum (F : List Byte) (s : State) : (loadRecord F s).checksum = ckf F := rfl
@[simp] theorem loadRecord_pktlen (F : List Byte) (s : State) : (loadRecord F s).pktlen = s.pktlen := rfl
@[simp] theorem loadRecord_ckacc (F : List Byte) (s : State) : (loadRecord F s).ckacc = s.ckacc := rfl
@[simp] theorem loadRecord_cksum (F : List Byte) (s : State) : (loadRecord F s).cksum = s.cksum := rfl
@[simp] theorem loadRecord_expect (F : List Byte) (s : State) : (loadRecord F s).expect = s.expect := rfl
@[simp] theorem loadRecord_pay (F : List Byte) (s : State) : (loadRecord F s).pay = Memory.writeAll s.pay 0 (payl F) := rfl
@[simp] theorem loadRecord_pkt (F : List Byte) (s : State) : (loadRecord F s).pkt = s.pkt := rfl
@[simp] theorem loadRecord_pending (F : List Byte) (s : State) : (loadRecord F s).pending = s.pending := rfl
@[simp] theorem loadRecord_returned (F : List Byte) (s : State) : (loadRecord F s).returned = s.returned := rfl

/-! `storeFrame` (42_packet_codec.md R152): the wire buffer and the checksum. -/

@[simp] theorem storeFrame_err (F : List Byte) (s : State) : (storeFrame F s).err = s.err := rfl
@[simp] theorem storeFrame_valid (F : List Byte) (s : State) : (storeFrame F s).valid = s.valid := rfl
@[simp] theorem storeFrame_matched (F : List Byte) (s : State) : (storeFrame F s).matched = s.matched := rfl
@[simp] theorem storeFrame_odd (F : List Byte) (s : State) : (storeFrame F s).odd = s.odd := rfl
@[simp] theorem storeFrame_seq (F : List Byte) (s : State) : (storeFrame F s).seq = s.seq := rfl
@[simp] theorem storeFrame_ack (F : List Byte) (s : State) : (storeFrame F s).ack = s.ack := rfl
@[simp] theorem storeFrame_flags (F : List Byte) (s : State) : (storeFrame F s).flags = s.flags := rfl
@[simp] theorem storeFrame_length (F : List Byte) (s : State) : (storeFrame F s).length = s.length := rfl
@[simp] theorem storeFrame_checksum (F : List Byte) (s : State) : (storeFrame F s).checksum = ckf F := rfl
@[simp] theorem storeFrame_pktlen (F : List Byte) (s : State) : (storeFrame F s).pktlen = BitVec.ofNat 16 F.length := rfl
@[simp] theorem storeFrame_ckacc (F : List Byte) (s : State) : (storeFrame F s).ckacc = s.ckacc := rfl
@[simp] theorem storeFrame_cksum (F : List Byte) (s : State) : (storeFrame F s).cksum = s.cksum := rfl
@[simp] theorem storeFrame_expect (F : List Byte) (s : State) : (storeFrame F s).expect = s.expect := rfl
@[simp] theorem storeFrame_pay (F : List Byte) (s : State) : (storeFrame F s).pay = s.pay := rfl
@[simp] theorem storeFrame_pkt (F : List Byte) (s : State) : (storeFrame F s).pkt = Memory.writeAll s.pkt 0 F := rfl
@[simp] theorem storeFrame_pending (F : List Byte) (s : State) : (storeFrame F s).pending = s.pending := rfl
@[simp] theorem storeFrame_returned (F : List Byte) (s : State) : (storeFrame F s).returned = s.returned := rfl

/-! `resetBlock` (70_reset_and_hazards.md R210): every register 0, the buffers unspecified. -/

@[simp] theorem resetBlock_err (s : State) : (resetBlock s).err = 0 := rfl
@[simp] theorem resetBlock_valid (s : State) : (resetBlock s).valid = false := rfl
@[simp] theorem resetBlock_matched (s : State) : (resetBlock s).matched = false := rfl
@[simp] theorem resetBlock_odd (s : State) : (resetBlock s).odd = false := rfl
@[simp] theorem resetBlock_seq (s : State) : (resetBlock s).seq = 0 := rfl
@[simp] theorem resetBlock_ack (s : State) : (resetBlock s).ack = 0 := rfl
@[simp] theorem resetBlock_flags (s : State) : (resetBlock s).flags = 0 := rfl
@[simp] theorem resetBlock_length (s : State) : (resetBlock s).length = 0 := rfl
@[simp] theorem resetBlock_checksum (s : State) : (resetBlock s).checksum = 0 := rfl
@[simp] theorem resetBlock_pktlen (s : State) : (resetBlock s).pktlen = 0 := rfl
@[simp] theorem resetBlock_ckacc (s : State) : (resetBlock s).ckacc = 0 := rfl
@[simp] theorem resetBlock_cksum (s : State) : (resetBlock s).cksum = 0 := rfl
@[simp] theorem resetBlock_expect (s : State) : (resetBlock s).expect = 0 := rfl
@[simp] theorem resetBlock_pay (s : State) : (resetBlock s).pay = [] := rfl
@[simp] theorem resetBlock_pkt (s : State) : (resetBlock s).pkt = [] := rfl
@[simp] theorem resetBlock_pending (s : State) : (resetBlock s).pending = s.pending := rfl
@[simp] theorem resetBlock_returned (s : State) : (resetBlock s).returned = [] := rfl

/-! `setBuffer .pay`: that buffer and nothing else. -/

@[simp] theorem setBuffer_pay_err (m : Memory) (s : State) : (s.setBuffer .pay m).err = s.err := rfl
@[simp] theorem setBuffer_pay_valid (m : Memory) (s : State) : (s.setBuffer .pay m).valid = s.valid := rfl
@[simp] theorem setBuffer_pay_matched (m : Memory) (s : State) : (s.setBuffer .pay m).matched = s.matched := rfl
@[simp] theorem setBuffer_pay_odd (m : Memory) (s : State) : (s.setBuffer .pay m).odd = s.odd := rfl
@[simp] theorem setBuffer_pay_seq (m : Memory) (s : State) : (s.setBuffer .pay m).seq = s.seq := rfl
@[simp] theorem setBuffer_pay_ack (m : Memory) (s : State) : (s.setBuffer .pay m).ack = s.ack := rfl
@[simp] theorem setBuffer_pay_flags (m : Memory) (s : State) : (s.setBuffer .pay m).flags = s.flags := rfl
@[simp] theorem setBuffer_pay_length (m : Memory) (s : State) : (s.setBuffer .pay m).length = s.length := rfl
@[simp] theorem setBuffer_pay_checksum (m : Memory) (s : State) : (s.setBuffer .pay m).checksum = s.checksum := rfl
@[simp] theorem setBuffer_pay_pktlen (m : Memory) (s : State) : (s.setBuffer .pay m).pktlen = s.pktlen := rfl
@[simp] theorem setBuffer_pay_ckacc (m : Memory) (s : State) : (s.setBuffer .pay m).ckacc = s.ckacc := rfl
@[simp] theorem setBuffer_pay_cksum (m : Memory) (s : State) : (s.setBuffer .pay m).cksum = s.cksum := rfl
@[simp] theorem setBuffer_pay_expect (m : Memory) (s : State) : (s.setBuffer .pay m).expect = s.expect := rfl
@[simp] theorem setBuffer_pay_pay (m : Memory) (s : State) : (s.setBuffer .pay m).pay = m := rfl
@[simp] theorem setBuffer_pay_pkt (m : Memory) (s : State) : (s.setBuffer .pay m).pkt = s.pkt := rfl
@[simp] theorem setBuffer_pay_pending (m : Memory) (s : State) : (s.setBuffer .pay m).pending = s.pending := rfl
@[simp] theorem setBuffer_pay_returned (m : Memory) (s : State) : (s.setBuffer .pay m).returned = s.returned := rfl

/-! `setBuffer .pkt`: that buffer and nothing else. -/

@[simp] theorem setBuffer_pkt_err (m : Memory) (s : State) : (s.setBuffer .pkt m).err = s.err := rfl
@[simp] theorem setBuffer_pkt_valid (m : Memory) (s : State) : (s.setBuffer .pkt m).valid = s.valid := rfl
@[simp] theorem setBuffer_pkt_matched (m : Memory) (s : State) : (s.setBuffer .pkt m).matched = s.matched := rfl
@[simp] theorem setBuffer_pkt_odd (m : Memory) (s : State) : (s.setBuffer .pkt m).odd = s.odd := rfl
@[simp] theorem setBuffer_pkt_seq (m : Memory) (s : State) : (s.setBuffer .pkt m).seq = s.seq := rfl
@[simp] theorem setBuffer_pkt_ack (m : Memory) (s : State) : (s.setBuffer .pkt m).ack = s.ack := rfl
@[simp] theorem setBuffer_pkt_flags (m : Memory) (s : State) : (s.setBuffer .pkt m).flags = s.flags := rfl
@[simp] theorem setBuffer_pkt_length (m : Memory) (s : State) : (s.setBuffer .pkt m).length = s.length := rfl
@[simp] theorem setBuffer_pkt_checksum (m : Memory) (s : State) : (s.setBuffer .pkt m).checksum = s.checksum := rfl
@[simp] theorem setBuffer_pkt_pktlen (m : Memory) (s : State) : (s.setBuffer .pkt m).pktlen = s.pktlen := rfl
@[simp] theorem setBuffer_pkt_ckacc (m : Memory) (s : State) : (s.setBuffer .pkt m).ckacc = s.ckacc := rfl
@[simp] theorem setBuffer_pkt_cksum (m : Memory) (s : State) : (s.setBuffer .pkt m).cksum = s.cksum := rfl
@[simp] theorem setBuffer_pkt_expect (m : Memory) (s : State) : (s.setBuffer .pkt m).expect = s.expect := rfl
@[simp] theorem setBuffer_pkt_pay (m : Memory) (s : State) : (s.setBuffer .pkt m).pay = s.pay := rfl
@[simp] theorem setBuffer_pkt_pkt (m : Memory) (s : State) : (s.setBuffer .pkt m).pkt = m := rfl
@[simp] theorem setBuffer_pkt_pending (m : Memory) (s : State) : (s.setBuffer .pkt m).pending = s.pending := rfl
@[simp] theorem setBuffer_pkt_returned (m : Memory) (s : State) : (s.setBuffer .pkt m).returned = s.returned := rfl

/-! Reading a buffer space by name. -/

@[simp] theorem buffer_pay (s : State) : s.buffer .pay = s.pay := rfl
@[simp] theorem buffer_pkt (s : State) : s.buffer .pkt = s.pkt := rfl

theorem buffer_setBuffer (s : State) (sp sp' : BufSpace) (m : Memory) :
    (s.setBuffer sp m).buffer sp' = if sp' = sp then m else s.buffer sp' := by
  cases sp <;> cases sp' <;> rfl

/-! The parameters of 00_scope.md R6 and the sizes of the spaces. -/

@[simp] theorem hdrLen_eq : Config.hdrLen = 7 := rfl
@[simp] theorem maxPayload_eq : Config.maxPayload = 1000 := rfl
@[simp] theorem maxPacket_eq : Config.maxPacket = 1007 := rfl
@[simp] theorem pktCap_eq : Config.pktCap = 1007 := rfl
@[simp] theorem payCap_eq : Config.payCap = 1000 := rfl
@[simp] theorem nReg_eq : Config.nReg = 11 := rfl
@[simp] theorem capacity_pay : BufSpace.pay.capacity = 1000 := rfl
@[simp] theorem capacity_pkt : BufSpace.pkt.capacity = 1007 := rfl

/-! Register numbers name the registers, and only 0 to 10 do. -/

@[simp] theorem ofNumber?_number (r : Reg) : Reg.ofNumber? r.number = some r := by cases r <;> rfl

theorem ofNumber?_eq_none {n : Nat} : Reg.ofNumber? n = none ↔ 11 ≤ n := by
  constructor
  · intro h
    by_contra hn
    have : n < 11 := by omega
    interval_cases n <;> simp [Reg.ofNumber?] at h
  · intro h
    unfold Reg.ofNumber?
    split <;> first | rfl | omega

theorem ofNumber?_eq_some {n : Nat} {r : Reg} : Reg.ofNumber? n = some r ↔ n = r.number := by
  constructor
  · intro h
    unfold Reg.ofNumber? at h
    split at h <;> cases h <;> rfl
  · rintro rfl
    exact ofNumber?_number r

end Sys2Proof.Machine
end

