-- ==== Sys2Proof/Laws/Arith.lean ====
section
/-! SUPPORT. The bit-field helpers and the checksum functions as arithmetic on naturals, and the sequence functions on the
shapes of their argument. -/

namespace Sys2Proof.Machine

/-! Bytes and words (00_scope.md R9). -/

theorem be16_toNat (h l : Byte) : (be16 h l).toNat = h.toNat * 256 + l.toNat := by
  unfold be16
  rw [BitVec.toNat_ofNat]
  omega

theorem hi8_toNat (v : Word) : (hi8 v).toNat = v.toNat / 256 := by
  unfold hi8
  rw [BitVec.extractLsb'_toNat, Nat.shiftRight_eq_div_pow]
  omega

theorem lo8_toNat (v : Word) : (lo8 v).toNat = v.toNat % 256 := by
  unfold lo8
  rw [BitVec.extractLsb'_toNat, Nat.shiftRight_eq_div_pow]
  omega

@[simp] theorem be16_hi8_lo8 (v : Word) : be16 (hi8 v) (lo8 v) = v := by
  apply BitVec.eq_of_toNat_eq
  rw [be16_toNat, hi8_toNat, lo8_toNat]
  omega

@[simp] theorem hi8_be16 (h l : Byte) : hi8 (be16 h l) = h := by
  apply BitVec.eq_of_toNat_eq
  rw [hi8_toNat, be16_toNat]
  omega

@[simp] theorem lo8_be16 (h l : Byte) : lo8 (be16 h l) = l := by
  apply BitVec.eq_of_toNat_eq
  rw [lo8_toNat, be16_toNat]
  omega

theorem not16_toNat (v : Word) : (not16 v).toNat = 0xFFFF - v.toNat := by
  unfold not16
  rw [BitVec.toNat_not]

theorem not16_inj {v w : Word} (h : not16 v = not16 w) : v = w := by
  apply BitVec.eq_of_toNat_eq
  have := congrArg BitVec.toNat h
  rw [not16_toNat, not16_toNat] at this
  omega

theorem ckbyteAddend_toNat (odd : Bool) (b : Byte) :
    (ckbyteAddend odd b).toNat = if odd then b.toNat else b.toNat * 256 := by
  cases odd <;> simp [ckbyteAddend, be16_toNat]

theorem ocAdd_toNat (a b : Word) :
    (ocAdd a b).toNat = (a.toNat + b.toNat) % 65536 + (a.toNat + b.toNat) / 65536 := by
  unfold ocAdd
  simp only [BitVec.toNat_ofNat]
  omega

/-! The fold (41_checksum_engine.md R120). -/

theorem foldSteps_of_le {n x : Nat} (h : x ≤ 0xFFFF) : foldSteps n x = x := by
  cases n with
  | zero => rfl
  | succ n => rw [foldSteps, if_pos h]

/-- Any number of steps that is at least the argument gives the same value. -/
theorem foldSteps_of_enough {n m x : Nat} (hn : x ≤ n) (hm : x ≤ m) : foldSteps n x = foldSteps m x := by
  induction n generalizing m x with
  | zero => rw [foldSteps_of_le (by omega), foldSteps_of_le (by omega)]
  | succ n ih =>
    cases m with
    | zero => rw [foldSteps_of_le (by omega), foldSteps_of_le (by omega)]
    | succ m =>
      rw [foldSteps, foldSteps]
      split_ifs with h
      · rfl
      · exact ih (by omega) (by omega)

theorem fold_of_le {x : Nat} (h : x ≤ 0xFFFF) : fold x = x := foldSteps_of_le h

/-- The second equation of R120, as the spec writes it. -/
theorem fold_of_gt {x : Nat} (h : 0xFFFF < x) : fold x = fold (x % 65536 + x / 65536) := by
  unfold fold
  obtain ⟨n, rfl⟩ : ∃ n, x = n + 1 := ⟨x - 1, by omega⟩
  rw [foldSteps, if_neg (by omega)]
  exact foldSteps_of_enough (by omega) (by omega)

/-- To show something of `fold x`, show it of small values and carry it over one step. -/
theorem fold_induction {P : Nat → Nat → Prop} (small : ∀ x, x ≤ 0xFFFF → P x x)
    (step : ∀ x y, 0xFFFF < x → P (x % 65536 + x / 65536) y → P x y) (x : Nat) : P x (fold x) := by
  induction x using Nat.strong_induction_on with
  | _ x ih =>
    by_cases h : x ≤ 0xFFFF
    · rw [fold_of_le h]
      exact small x h
    · rw [fold_of_gt (by omega)]
      exact step x _ (by omega) (ih _ (by omega))

theorem fold_le (x : Nat) : fold x ≤ 0xFFFF :=
  fold_induction (P := fun _ y => y ≤ 0xFFFF) (fun _ h => h) (fun _ _ _ h => h) x

theorem cksum_toNat (B : List Byte) : (cksum B).toNat = 0xFFFF - fold (wsum B) := by
  unfold cksum
  have := fold_le (wsum B)
  rw [not16_toNat, BitVec.toNat_ofNat, Nat.mod_eq_of_lt (by omega)]

/-! The word sum (R121) on the shapes of its argument. -/

@[simp] theorem wsum_nil : wsum [] = 0 := rfl

@[simp] theorem wsum_singleton (b : Byte) : wsum [b] = b.toNat * 256 := by
  simp [wsum, pad, words, be16_toNat]

theorem pad_cons_cons (h l : Byte) (B : List Byte) : pad (h :: l :: B) = h :: l :: pad B := by
  unfold pad
  simp only [List.length_cons, List.cons_append]
  split_ifs with h1 h2 h2 <;> first | rfl | omega

@[simp] theorem wsum_cons_cons (h l : Byte) (B : List Byte) :
    wsum (h :: l :: B) = (h.toNat * 256 + l.toNat) + wsum B := by
  unfold wsum
  rw [pad_cons_cons, words, List.map_cons, List.sum_cons, be16_toNat]

/-! The frame (30_encoding.md R97, R98). -/

@[simp] theorem length_ser (seq ack flags : Byte) (len ck : Word) (P : List Byte) :
    (ser seq ack flags len ck P).length = 7 + P.length := by
  simp [ser]
  omega

@[simp] theorem seqOf_ser (seq ack flags : Byte) (len ck : Word) (P : List Byte) :
    seqOf (ser seq ack flags len ck P) = seq := rfl
@[simp] theorem ackOf_ser (seq ack flags : Byte) (len ck : Word) (P : List Byte) :
    ackOf (ser seq ack flags len ck P) = ack := rfl
@[simp] theorem flagsOf_ser (seq ack flags : Byte) (len ck : Word) (P : List Byte) :
    flagsOf (ser seq ack flags len ck P) = flags := rfl
@[simp] theorem lenf_ser (seq ack flags : Byte) (len ck : Word) (P : List Byte) :
    lenf (ser seq ack flags len ck P) = len := by
  simp [lenf, byteAt, ser]
@[simp] theorem ckf_ser (seq ack flags : Byte) (len ck : Word) (P : List Byte) :
    ckf (ser seq ack flags len ck P) = ck := by
  simp [ckf, byteAt, ser]
@[simp] theorem payl_ser (seq ack flags : Byte) (len ck : Word) (P : List Byte) :
    payl (ser seq ack flags len ck P) = P := rfl
@[simp] theorem zck_ser (seq ack flags : Byte) (len ck : Word) (P : List Byte) :
    zck (ser seq ack flags len ck P) = ser seq ack flags len 0x0000#16 P := rfl

/-- Every frame of at least 7 bytes is the serialisation of its own fields. -/
theorem ser_fields {F : List Byte} (h : 7 ≤ F.length) :
    ser (seqOf F) (ackOf F) (flagsOf F) (lenf F) (ckf F) (payl F) = F := by
  match F, h with
  | b0 :: b1 :: b2 :: b3 :: b4 :: b5 :: b6 :: P, _ =>
    simp [ser, seqOf, ackOf, flagsOf, lenf, ckf, payl, byteAt]
  | [], h | [_], h | [_, _], h | [_, _, _], h | [_, _, _, _], h | [_, _, _, _, _], h | [_, _, _, _, _, _], h =>
    simp at h

@[simp] theorem length_payl (F : List Byte) : (payl F).length = F.length - 7 := by
  simp [payl]

@[simp] theorem length_enc (seq ack flags : Byte) (P : List Byte) : (enc seq ack flags P).length = 7 + P.length := by
  simp [enc]

/-- Induction over a byte sequence two bytes at a time, as `words` takes it apart. -/
theorem pair_induction {P : List Byte → Prop} (h0 : P []) (h1 : ∀ b, P [b])
    (h2 : ∀ h l B, P B → P (h :: l :: B)) (B : List Byte) : P B := by
  suffices P B ∧ ∀ b, P (b :: B) from this.1
  induction B with
  | nil => exact ⟨h0, h1⟩
  | cons x B ih => exact ⟨ih.2 x, fun b => h2 b x B ih.1⟩

/-- One byte more at the end of a sequence: a high byte at an even offset, a low byte at an odd one. -/
theorem wsum_snoc (B : List Byte) (b : Byte) :
    wsum (B ++ [b]) = wsum B + (if B.length % 2 = 1 then b.toNat else b.toNat * 256) := by
  induction B using pair_induction with
  | h0 => simp
  | h1 x => simp
  | h2 h l B ih =>
    simp only [List.cons_append, wsum_cons_cons, ih, List.length_cons]
    have : (B.length + 1 + 1) % 2 = B.length % 2 := by omega
    simp only [this]; omega

end Sys2Proof.Machine
end

