-- ==== Sys2Proof/Laws/Decode.lean ====
section
/-! SUPPORT. The decoder: which row a word selects, and that no word selects two rows (30_encoding.md R92). -/

namespace Sys2Proof

/-- No two rows of the operation-code map overlap: they differ in a bit that both masks fix (R92: "No word selects two rows"). -/
theorem opcodeRows_disjoint :
    opcodeRows.Pairwise fun r r' => r.mask &&& r'.mask &&& (r.pattern ^^^ r'.pattern) ≠ 0#16 := by
  decide

/-- A word selects a format `N` row when it is that row's word. -/
theorem selects_exact (name : String) (p : Word) (f : Byte → Instr) (cw : Word) :
    (OpcodeRow.mk name p 0xFFFF#16 f).selects cw = decide (cw = p) := by
  have : cw &&& 0xFFFF#16 = cw := by simpa using BitVec.and_allOnes (x := cw)
  simp only [OpcodeRow.selects, this]
  rfl

/-- A word selects the CKBYTE row when its operation code is 0x02. -/
theorem selects_ckbyte (name : String) (f : Byte → Instr) (cw : Word) :
    (OpcodeRow.mk name 0x0200#16 0xFF00#16 f).selects cw = decide (Machine.hi8 cw = 0x02#8) := by
  simp only [OpcodeRow.selects, beq_eq_decide, decide_eq_decide]
  constructor
  · intro h
    apply BitVec.eq_of_getLsbD_eq
    intro i hi
    have := congrArg (fun v => v.getLsbD (i + 8)) h
    simp only [BitVec.getLsbD_and] at this
    rw [Machine.hi8, BitVec.getLsbD_extractLsb', Nat.add_comm 8 i]
    interval_cases i <;> simpa using this
  · intro h
    apply BitVec.eq_of_getLsbD_eq
    intro i hi
    by_cases h8 : i < 8
    · rw [BitVec.getLsbD_and]
      interval_cases i <;> simp
    · have := congrArg (fun v => v.getLsbD (i - 8)) h
      simp only [Machine.hi8, BitVec.getLsbD_extractLsb'] at this
      rw [BitVec.getLsbD_and]
      interval_cases i <;> simpa using this

/-- Which command a word is, row by row (R92). -/
theorem decode_ok_iff {cw : Word} {i : Instr} :
    decode cw = .ok i ↔
      (cw = 0x0100#16 ∧ i = .ckinit) ∨ (Machine.hi8 cw = 0x02#8 ∧ i = .ckbyte (Machine.lo8 cw))
        ∨ (cw = 0x0300#16 ∧ i = .ckfin) ∨ (cw = 0x0400#16 ∧ i = .ckvfy) ∨ (cw = 0x1000#16 ∧ i = .encode)
        ∨ (cw = 0x1100#16 ∧ i = .decode) ∨ (cw = 0x1200#16 ∧ i = .validate) := by
  unfold decode opcodeRows
  simp only [List.find?_cons, List.find?_nil, selects_exact, selects_ckbyte]
  have e1 : Machine.hi8 0x0100#16 ≠ 0x02#8 := by decide
  have e3 : Machine.hi8 0x0300#16 ≠ 0x02#8 := by decide
  have e4 : Machine.hi8 0x0400#16 ≠ 0x02#8 := by decide
  have e5 : Machine.hi8 0x1000#16 ≠ 0x02#8 := by decide
  have e6 : Machine.hi8 0x1100#16 ≠ 0x02#8 := by decide
  have e7 : Machine.hi8 0x1200#16 ≠ 0x02#8 := by decide
  by_cases h1 : cw = 0x0100#16
  · subst h1; simp [e1, eq_comm]
  by_cases h2 : Machine.hi8 cw = 0x02#8
  · have n3 : cw ≠ 0x0300#16 := fun h => e3 (h ▸ h2)
    have n4 : cw ≠ 0x0400#16 := fun h => e4 (h ▸ h2)
    have n5 : cw ≠ 0x1000#16 := fun h => e5 (h ▸ h2)
    have n6 : cw ≠ 0x1100#16 := fun h => e6 (h ▸ h2)
    have n7 : cw ≠ 0x1200#16 := fun h => e7 (h ▸ h2)
    simp [h1, h2, n3, n4, n5, n6, n7, eq_comm]
  by_cases h3 : cw = 0x0300#16
  · subst h3; simp [h2, eq_comm]
  by_cases h4 : cw = 0x0400#16
  · subst h4; simp [h2, eq_comm]
  by_cases h5 : cw = 0x1000#16
  · subst h5; simp [h2, eq_comm]
  by_cases h6 : cw = 0x1100#16
  · subst h6; simp [h2, eq_comm]
  by_cases h7 : cw = 0x1200#16
  · subst h7; simp [h2, eq_comm]
  simp only [h1, h2, h3, h4, h5, h6, h7, decide_false, false_and, or_self, iff_false]
  split <;> simp

end Sys2Proof
end

