-- ==== Sys2Proof/Laws/Memory.lean ====
section
/-! SUPPORT. The buffers: a read after a write, what a write leaves alone, the canonical form every operation keeps, and what
`readBytes` answers. -/

namespace Sys2Proof.Machine

/-! One byte. -/

@[simp] theorem read_nil (a : Nat) : Memory.read [] a = none := rfl

theorem read_cons (c : Host.Cell) (m : Memory) (a : Nat) :
    Memory.read (c :: m) a = if c.1 = a then some c.2 else Memory.read m a := rfl

@[simp] theorem read_write_same (m : Memory) (a : Nat) (v : Byte) : Memory.read (Memory.write m a v) a = some v := by
  induction m with
  | nil => simp [Memory.write, read_cons]
  | cons c m ih =>
    unfold Memory.write
    split_ifs with h1 h2
    · simp [read_cons]
    · simp [read_cons]
    · simp [read_cons, ih, Ne.symm h2]

theorem read_write_of_ne (m : Memory) {a b : Nat} (v : Byte) (h : b ≠ a) :
    Memory.read (Memory.write m a v) b = Memory.read m b := by
  induction m with
  | nil => simp [Memory.write, read_cons, Ne.symm h]
  | cons c m ih =>
    unfold Memory.write
    split_ifs with h1 h2
    · simp [read_cons, Ne.symm h]
    · subst h2
      simp [read_cons, Ne.symm h]
    · simp [read_cons, ih]

theorem read_write (m : Memory) (a b : Nat) (v : Byte) :
    Memory.read (Memory.write m a v) b = if b = a then some v else Memory.read m b := by
  split_ifs with h
  · subst h
    exact read_write_same m b v
  · exact read_write_of_ne m v h

/-! Consecutive bytes. -/

@[simp] theorem writeAll_nil (m : Memory) (a : Nat) : Memory.writeAll m a [] = m := rfl

theorem writeAll_cons (m : Memory) (a : Nat) (v : Byte) (vs : List Byte) :
    Memory.writeAll m a (v :: vs) = Memory.writeAll (Memory.write m a v) (a + 1) vs := rfl

theorem read_writeAll (m : Memory) (a b : Nat) (vs : List Byte) :
    Memory.read (Memory.writeAll m a vs) b = if a ≤ b ∧ b < a + vs.length then vs[b - a]? else Memory.read m b := by
  induction vs generalizing m a with
  | nil => simp
  | cons v vs ih =>
    rw [writeAll_cons, ih, read_write]
    by_cases hb : b = a
    · subst hb; simp
    · by_cases h1 : a + 1 ≤ b ∧ b < a + 1 + vs.length
      · have h2 : a ≤ b ∧ b < a + (v :: vs).length := by simp; omega
        rw [if_pos h1, if_pos h2, show b - a = (b - (a + 1)) + 1 by omega, List.getElem?_cons_succ]
      · have h2 : ¬ (a ≤ b ∧ b < a + (v :: vs).length) := by simp; omega
        rw [if_neg h1, if_neg h2, if_neg hb]

/-- The bytes written stand in the buffer. -/
theorem holds_writeAll (m : Memory) (vs : List Byte) : Memory.Holds (Memory.writeAll m 0 vs) vs := by
  intro i hi
  rw [read_writeAll, if_pos (by omega), Nat.sub_zero]

/-- Above the bytes written the buffer is as before. -/
theorem read_writeAll_above (m : Memory) (vs : List Byte) {a : Nat} (h : vs.length ≤ a) :
    Memory.read (Memory.writeAll m 0 vs) a = Memory.read m a := by
  rw [read_writeAll, if_neg (by omega)]

/-! The canonical form. -/

theorem wf_cons {c : Host.Cell} {m : Memory} (h : Memory.wf (c :: m) = true) : Memory.wf m = true := by
  cases m with
  | nil => rfl
  | cons d m =>
    rw [Memory.wf, Bool.and_eq_true] at h
    exact h.2

theorem wf_write {m : Memory} (a : Nat) (v : Byte) (h : Memory.wf m = true) : Memory.wf (Memory.write m a v) = true := by
  induction m with
  | nil => rfl
  | cons c m ih =>
    have ih := ih (wf_cons h)
    unfold Memory.write
    split_ifs with h1 h2
    · simp [Memory.wf, h1, h]
    · subst h2
      cases m with
      | nil => rfl
      | cons d m => simpa [Memory.wf] using h
    · cases m with
      | nil =>
        simp only [Memory.write, Memory.wf, Bool.and_true, decide_eq_true_eq]
        omega
      | cons d m =>
        simp only [Memory.wf, Bool.and_eq_true, decide_eq_true_eq] at h
        unfold Memory.write at ih ⊢
        split_ifs at ih ⊢ with h3 h4
        · simp only [Memory.wf, Bool.and_eq_true, decide_eq_true_eq] at ih ⊢
          exact ⟨by omega, ih⟩
        · simp only [Memory.wf, Bool.and_eq_true, decide_eq_true_eq]
          exact ⟨by omega, ih⟩
        · simp only [Memory.wf, Bool.and_eq_true, decide_eq_true_eq]
          exact ⟨h.1, ih⟩

theorem wf_writeAll {m : Memory} (a : Nat) (vs : List Byte) (h : Memory.wf m = true) :
    Memory.wf (Memory.writeAll m a vs) = true := by
  induction vs generalizing m a with
  | nil => exact h
  | cons v vs ih => exact ih (a + 1) (wf_write a v h)

theorem within_write {cap : Nat} {m : Memory} {a : Nat} (v : Byte) (ha : a < cap) (h : Memory.within cap m = true) :
    Memory.within cap (Memory.write m a v) = true := by
  induction m with
  | nil => simp [Memory.write, Memory.within, ha]
  | cons c m ih =>
    have hc : c.1 < cap ∧ Memory.within cap m = true := by simpa [Memory.within] using h
    have ih := ih hc.2
    unfold Memory.write
    split_ifs with h1 h2
    · simpa [Memory.within, ha] using h
    · simpa [Memory.within, ha] using hc.2
    · simpa [Memory.within, hc.1] using ih

theorem within_writeAll {cap : Nat} {m : Memory} {a : Nat} {vs : List Byte} (ha : a + vs.length ≤ cap)
    (h : Memory.within cap m = true) : Memory.within cap (Memory.writeAll m a vs) = true := by
  induction vs generalizing m a with
  | nil => exact h
  | cons v vs ih =>
    simp only [List.length_cons] at ha
    exact ih (by omega) (within_write v (by omega) h)

/-- In canonical form nothing is listed below the first offset. -/
theorem read_below {m : Memory} {c : Host.Cell} (h : Memory.wf (c :: m) = true) {a : Nat} (ha : a ≤ c.1) :
    Memory.read m a = none := by
  induction m generalizing c with
  | nil => rfl
  | cons d m ih =>
    simp only [Memory.wf, Bool.and_eq_true, decide_eq_true_eq] at h
    rw [read_cons, if_neg (by omega)]
    exact ih h.2 (by omega)

/-- Equal memories are equal lists: writing the byte that is there changes nothing. -/
theorem write_of_read {m : Memory} {a : Nat} {v : Byte} (hw : Memory.wf m = true) (h : Memory.read m a = some v) :
    Memory.write m a v = m := by
  induction m with
  | nil => cases h
  | cons c m ih =>
    unfold Memory.write
    rw [read_cons] at h
    split_ifs at h with hc
    · cases h
      subst hc
      simp
    · split_ifs with h1 h2
      · rw [read_below hw (by omega)] at h
        cases h
      · exact absurd h2.symm hc
      · rw [ih (wf_cons hw) h]

theorem writeAll_of_read {m : Memory} {a : Nat} {vs : List Byte} (hw : Memory.wf m = true)
    (h : ∀ i, i < vs.length → Memory.read m (a + i) = vs[i]?) : Memory.writeAll m a vs = m := by
  induction vs generalizing a with
  | nil => rfl
  | cons v vs ih =>
    have h0 := h 0 (by simp)
    rw [writeAll_cons, write_of_read hw (by simpa using h0)]
    apply ih
    intro i hi
    have := h (i + 1) (by simpa using hi)
    rw [show a + 1 + i = a + (i + 1) by omega, this, List.getElem?_cons_succ]

/-! `readBytes`: it answers the bytes, or names the lowest unspecified one. -/

theorem readBytes_ok_iff {sp : BufSpace} {m : Memory} {a n : Nat} {B : List Byte} :
    readBytes sp m a n = .ok B ↔ B.length = n ∧ ∀ i, i < n → Memory.read m (a + i) = B[i]? := by
  induction n generalizing a B with
  | zero =>
    constructor
    · intro h
      cases h
      simp
    · rintro ⟨h, -⟩
      rw [List.length_eq_zero_iff.mp h]
      rfl
  | succ n ih =>
    unfold readBytes
    cases hr : Memory.read m a with
    | none =>
      simp only [reduceCtorEq, false_iff, not_and]
      intro hl h
      have := h 0 (by omega)
      rw [Nat.add_zero, hr, List.getElem?_eq_getElem (by omega)] at this
      cases this
    | some b =>
      cases hs : readBytes sp m (a + 1) n with
      | error f =>
        simp only [reduceCtorEq, false_iff, not_and]
        intro hl h
        have : readBytes sp m (a + 1) n = .ok B.tail := by
          rw [ih]
          refine ⟨by simp; omega, fun i hi => ?_⟩
          rw [show a + 1 + i = a + (i + 1) by omega, h (i + 1) (by omega), List.getElem?_tail]
        rw [hs] at this
        cases this
      | ok bs =>
        rw [ih] at hs
        constructor
        · intro h
          cases h
          refine ⟨by simp [hs.1], fun i hi => ?_⟩
          cases i with
          | zero => simpa using hr
          | succ i => rw [show a + (i + 1) = a + 1 + i by omega, hs.2 i (by omega), List.getElem?_cons_succ]
        · rintro ⟨hl, h⟩
          have h0 := h 0 (by omega)
          rw [Nat.add_zero, hr] at h0
          show Except.ok (b :: bs) = Except.ok B
          congr 1
          apply List.ext_getElem?
          intro i
          cases i with
          | zero => simpa using h0
          | succ i =>
            by_cases hi : i < n
            · rw [List.getElem?_cons_succ, ← hs.2 i hi, ← h (i + 1) (by omega)]
              congr 1
              omega
            · rw [List.getElem?_eq_none (by simp [hs.1]; omega), List.getElem?_eq_none (by omega)]

theorem readBytes_error_iff {sp : BufSpace} {m : Memory} {a n : Nat} {f : Fault} :
    readBytes sp m a n = .error f ↔
      ∃ i, i < n ∧ f = .unspecifiedByte sp (a + i) ∧ Memory.read m (a + i) = none
        ∧ ∀ j, j < i → Memory.read m (a + j) ≠ none := by
  induction n generalizing a with
  | zero => simp [readBytes]
  | succ n ih =>
    unfold readBytes
    cases hr : Memory.read m a with
    | none =>
      constructor
      · intro h
        cases h
        exact ⟨0, by omega, rfl, hr, by omega⟩
      · rintro ⟨i, -, rfl, -, hj⟩
        cases i with
        | zero => rfl
        | succ i => exact absurd hr (hj 0 (by omega))
    | some b =>
      have key : readBytes sp m (a + 1) n = .error f ↔
          ∃ i, i < n + 1 ∧ f = .unspecifiedByte sp (a + i) ∧ Memory.read m (a + i) = none
            ∧ ∀ j, j < i → Memory.read m (a + j) ≠ none := by
        rw [ih]
        constructor
        · rintro ⟨i, hi, hf, hn, hj⟩
          refine ⟨i + 1, by omega, by rw [hf, Nat.add_assoc, Nat.add_comm 1 i],
            by rwa [Nat.add_assoc, Nat.add_comm 1 i] at hn, fun j hji => ?_⟩
          cases j with
          | zero => simp [hr]
          | succ j =>
            have := hj j (by omega)
            rwa [Nat.add_assoc, Nat.add_comm 1 j] at this
        · rintro ⟨i, hi, hf, hn, hj⟩
          cases i with
          | zero => rw [Nat.add_zero, hr] at hn; cases hn
          | succ i =>
            refine ⟨i, by omega, by rw [hf, Nat.add_assoc, Nat.add_comm 1 i],
              by rwa [Nat.add_assoc, Nat.add_comm 1 i], fun j hji => ?_⟩
            have := hj (j + 1) (by omega)
            rwa [Nat.add_assoc, Nat.add_comm 1 j]
      rw [← key]
      cases readBytes sp m (a + 1) n <;> simp

/-- A buffer that holds `B` reads as `B` (10_state.md R25). -/
theorem readBytes_of_holds {sp : BufSpace} {m : Memory} {B : List Byte} {n : Nat} (h : Memory.Holds m B)
    (hn : n = B.length) : readBytes sp m 0 n = .ok B := by
  rw [readBytes_ok_iff]
  exact ⟨hn.symm, fun i hi => by rw [Nat.zero_add]; exact h i (by omega)⟩

/-- What `readBytes` answers from offset 0 stands in the buffer. -/
theorem holds_of_readBytes {sp : BufSpace} {m : Memory} {B : List Byte} {n : Nat} (h : readBytes sp m 0 n = .ok B) :
    B.length = n ∧ Memory.Holds m B := by
  rw [readBytes_ok_iff] at h
  exact ⟨h.1, fun i hi => by have := h.2 i (by omega); rwa [Nat.zero_add] at this⟩

/-- A specified range is read. -/
theorem readBytes_of_specified {sp : BufSpace} {m : Memory} {a n : Nat}
    (h : ∀ i, i < n → Memory.read m (a + i) ≠ none) : ∃ B, readBytes sp m a n = .ok B := by
  cases hr : readBytes sp m a n with
  | ok B => exact ⟨B, rfl⟩
  | error f =>
    obtain ⟨i, hi, -, hn, -⟩ := readBytes_error_iff.mp hr
    exact absurd hn (h i hi)

/-- `readBytes` sees only the bytes it reads (20_memory.md R76). -/
theorem readBytes_congr {sp : BufSpace} {m m' : Memory} {a n : Nat}
    (h : ∀ i, i < n → Memory.read m (a + i) = Memory.read m' (a + i)) : readBytes sp m a n = readBytes sp m' a n := by
  induction n generalizing a with
  | zero => rfl
  | succ n ih =>
    unfold readBytes
    rw [← show Memory.read m a = Memory.read m' a from h 0 (by omega),
      ih (a := a + 1) (by intro i hi; rw [show a + 1 + i = a + (i + 1) by omega]; exact h _ (by omega))]

/-- A buffer that holds `F` holds `F` with one byte replaced after that byte is written. -/
theorem holds_write {m : Memory} {F : List Byte} (h : Memory.Holds m F) (k : Nat) (v : Byte) :
    Memory.Holds (Memory.write m k v) (F.set k v) := by
  intro i hi
  simp at hi
  rw [read_write, List.getElem?_set]
  split_ifs with h1 h2 h3 <;> first | rfl | omega | exact h i hi

end Sys2Proof.Machine
end

