-- ==== Sys2Proof/Laws/Ops.lean ====
section
/-! SUPPORT. The shared operations of the meanings: what the first checks of DECODE and VALIDATE answer, and what each codec command did
when it answered a next state. -/

namespace Sys2Proof.Machine

/-! How a command ends (00_scope.md R11). -/

theorem fail_eq (r : Reason) (s : State) : fail r s = .next (report r s) := rfl

theorem succeed_eq (s : State) : succeed s = .next (report .noFailure s) := rfl

theorem verdict_eq (r : Reason) (s : State) :
    verdict r s = .next { s with err := r.code, valid := decide (r = .noFailure) } := rfl

theorem code_le (r : Reason) : r.code.toNat ≤ 6 := by cases r <;> decide

/-- Code 0 is success and nothing else is (60_exceptions.md R190). -/
theorem code_eq_zero {r : Reason} : r.code = 0#4 ↔ r = .noFailure := by cases r <;> decide

/-! The first checks of DECODE and VALIDATE (42_packet_codec.md R155, R156, R160). -/

/-- The two length bytes, when they are specified. -/
theorem readBytes_length_field {m : Memory} {h l : Byte} (hh : Memory.read m 3 = some h) (hl : Memory.read m 4 = some l) :
    readBytes .pkt m 3 2 = .ok [h, l] := by
  simp [readBytes, hh, hl]

/-- Everything the checks can answer, one case per row of 60_exceptions.md R190 and one for an unspecified length byte. -/
theorem frameCheck_cases (s : State) :
    (1007 < s.pktlen.toNat ∧ frameCheck s = .ok (some .frameTooLong))
    ∨ (s.pktlen.toNat < 7 ∧ frameCheck s = .ok (some .tooShort))
    ∨ (7 ≤ s.pktlen.toNat ∧ s.pktlen.toNat ≤ 1007 ∧
        ∃ a, (a = 3 ∨ a = 4) ∧ Memory.read s.pkt a = none ∧ frameCheck s = .error (.unspecifiedByte .pkt a))
    ∨ (7 ≤ s.pktlen.toNat ∧ s.pktlen.toNat ≤ 1007 ∧
        ∃ h l, Memory.read s.pkt 3 = some h ∧ Memory.read s.pkt 4 = some l ∧
          s.pktlen.toNat - 7 ≠ (be16 h l).toNat ∧ frameCheck s = .ok (some .lengthMismatch))
    ∨ (7 ≤ s.pktlen.toNat ∧ s.pktlen.toNat ≤ 1007 ∧
        ∃ h l, Memory.read s.pkt 3 = some h ∧ Memory.read s.pkt 4 = some l ∧
          s.pktlen.toNat - 7 = (be16 h l).toNat ∧ frameCheck s = .ok none) := by
  by_cases h1 : 1007 < s.pktlen.toNat
  · left
    exact ⟨h1, by simp [frameCheck, frameLen, h1]⟩
  by_cases h2 : s.pktlen.toNat < 7
  · right; left
    exact ⟨h2, by simp [frameCheck, frameLen, h1, h2]⟩
  right; right
  have e : frameCheck s =
      match readBytes .pkt s.pkt 3 2 with
      | .error f => .error f
      | .ok len =>
        if s.pktlen.toNat - 7 ≠ (be16 (byteAt len 0) (byteAt len 1)).toNat then .ok (some .lengthMismatch) else .ok none := by
    exact (if_neg h1).trans (if_neg h2)
  cases r3 : Memory.read s.pkt 3 with
  | none => exact .inl ⟨by omega, by omega, 3, .inl rfl, r3, by rw [e]; simp [readBytes, r3]⟩
  | some h =>
    cases r4 : Memory.read s.pkt 4 with
    | none => exact .inl ⟨by omega, by omega, 4, .inr rfl, r4, by rw [e]; simp [readBytes, r3, r4]⟩
    | some l =>
      right
      rw [readBytes_length_field r3 r4] at e
      by_cases h3 : s.pktlen.toNat - 7 = (be16 h l).toNat
      · right
        exact ⟨by omega, by omega, h, l, rfl, rfl, h3, by rw [e]; simp [byteAt, h3]⟩
      · left
        exact ⟨by omega, by omega, h, l, rfl, rfl, h3, by rw [e]; simp [byteAt, h3]⟩

/-- A check that fails names a failure. -/
theorem frameCheck_some_ne {s : State} {r : Reason} (h : frameCheck s = .ok (some r)) : r ≠ .noFailure := by
  rcases frameCheck_cases s with
    ⟨_, e⟩ | ⟨_, e⟩ | ⟨_, _, _, _, _, e⟩ | ⟨_, _, _, _, _, _, _, e⟩ | ⟨_, _, _, _, _, _, _, e⟩ <;>
  · rw [e] at h
    cases h <;> simp

/-- The bytes `readBytes` answers for a frame carry the length field the checks read. -/
theorem lenf_of_holds {m : Memory} {F : List Byte} {h l : Byte} (hF : Memory.Holds m F) (h7 : 7 ≤ F.length)
    (h3 : Memory.read m 3 = some h) (h4 : Memory.read m 4 = some l) : lenf F = be16 h l := by
  have e3 := hF 3 (by omega)
  have e4 := hF 4 (by omega)
  rw [h3] at e3
  rw [h4] at e4
  simp [lenf, byteAt, List.getD_eq_getElem?_getD, ← e3, ← e4]

/-- The checks pass exactly on a well-formed frame (30_encoding.md R102). -/
theorem frameCheck_of_holds {s : State} {F : List Byte} (hl : s.pktlen.toNat = F.length) (hF : Memory.Holds s.pkt F) :
    frameCheck s = .ok none ↔ wfFrame F = true := by
  have hw : wfFrame F = true ↔ 7 ≤ F.length ∧ F.length ≤ 1007 ∧ F.length - 7 = (lenf F).toNat := by
    simp [wfFrame, and_assoc]
  rw [hw]
  rcases frameCheck_cases s with ⟨h, e⟩ | ⟨h, e⟩ | ⟨h7, h, a, ha, hn, e⟩ | ⟨h7, h, x, y, hx, hy, hne, e⟩ | ⟨h7, h, x, y, hx, hy, he, e⟩
  · simp [e]; omega
  · simp [e]; omega
  · have := hF a (by omega)
    rw [hn, List.getElem?_eq_getElem (by omega)] at this
    cases this
  · rw [lenf_of_holds hF (by omega) hx hy]
    simp [e]
    omega
  · rw [lenf_of_holds hF (by omega) hx hy]
    simp [e]
    omega

/-! What each codec command did when it answered a next state. -/

theorem execEncode_next {s t : State} (h : execEncode s = .next t) :
    (1000 < s.length.toNat ∧ t = report .payloadTooLarge s)
    ∨ (s.length.toNat ≤ 1000 ∧ ∃ P : List Byte, P.length = s.length.toNat ∧ Memory.Holds s.pay P
        ∧ t = report .noFailure (storeFrame (enc s.seq s.ack s.flags P) s)) := by
  unfold execEncode at h
  split_ifs at h with h1
  · left
    rw [fail_eq] at h
    cases h
    exact ⟨h1, rfl⟩
  · right
    rw [maxPayload_eq] at h1
    split at h
    · cases h
    · next P hP =>
      rw [succeed_eq] at h
      cases h
      obtain ⟨hl, hP⟩ := holds_of_readBytes hP
      exact ⟨by omega, P, hl, hP, rfl⟩

theorem execDecode_next {s t : State} (h : execDecode s = .next t) :
    (∃ r, frameCheck s = .ok (some r) ∧ t = report r s)
    ∨ (frameCheck s = .ok none ∧ ∃ F : List Byte, F.length = s.pktlen.toNat ∧ Memory.Holds s.pkt F
        ∧ t = report .noFailure (loadRecord F s)) := by
  unfold execDecode at h
  split at h
  · cases h
  · next r hr =>
    rw [fail_eq] at h
    cases h
    exact .inl ⟨r, hr, rfl⟩
  · next hc =>
    split at h
    · cases h
    · next F hF =>
      rw [succeed_eq] at h
      cases h
      obtain ⟨hl, hF⟩ := holds_of_readBytes hF
      exact .inr ⟨hc, F, hl, hF, rfl⟩

theorem execValidate_next {s t : State} (h : execValidate s = .next t) :
    (∃ r, frameCheck s = .ok (some r) ∧ verdict r s = .next t)
    ∨ (frameCheck s = .ok none ∧ ∃ F : List Byte, F.length = s.pktlen.toNat ∧ Memory.Holds s.pkt F
        ∧ verdict (if cksum (zck F) = ckf F then .noFailure else .checksumMismatch) s = .next t) := by
  unfold execValidate at h
  split at h
  · cases h
  · next r hr => exact .inl ⟨r, hr, h⟩
  · next hc =>
    split at h
    · cases h
    · next F hF =>
      obtain ⟨hl, hF⟩ := holds_of_readBytes hF
      refine .inr ⟨hc, F, hl, hF, ?_⟩
      split_ifs at h ⊢ <;> exact h

/-! What each codec command answers, from the buffers. -/

theorem execEncode_of_holds {s : State} {P : List Byte} (hl : P.length = s.length.toNat) (h : P.length ≤ 1000)
    (hP : Memory.Holds s.pay P) :
    execEncode s = .next (report .noFailure (storeFrame (enc s.seq s.ack s.flags P) s)) := by
  unfold execEncode
  rw [maxPayload_eq, if_neg (by omega), readBytes_of_holds hP hl.symm]
  rfl

theorem execDecode_of_wfFrame {s : State} {F : List Byte} (hl : s.pktlen.toNat = F.length) (hF : Memory.Holds s.pkt F)
    (hw : wfFrame F = true) : execDecode s = .next (report .noFailure (loadRecord F s)) := by
  unfold execDecode
  rw [(frameCheck_of_holds hl hF).mpr hw]
  simp only [frameLen]
  rw [readBytes_of_holds hF hl]
  rfl

theorem execValidate_of_wfFrame {s : State} {F : List Byte} (hl : s.pktlen.toNat = F.length) (hF : Memory.Holds s.pkt F)
    (hw : wfFrame F = true) :
    execValidate s = verdict (if cksum (zck F) = ckf F then .noFailure else .checksumMismatch) s := by
  unfold execValidate
  rw [(frameCheck_of_holds hl hF).mpr hw]
  simp only [frameLen]
  rw [readBytes_of_holds hF hl]
  by_cases h : cksum (zck F) = ckf F <;> simp [h]

/-! One lemma per answer of the checks, for a caller that knows which case it is in. -/

theorem frameCheck_long {s : State} (h : 1007 < s.pktlen.toNat) : frameCheck s = .ok (some .frameTooLong) := by
  rcases frameCheck_cases s with
    ⟨_, e⟩ | ⟨_, e⟩ | ⟨_, _, _, _, _, e⟩ | ⟨_, _, _, _, _, _, _, e⟩ | ⟨_, _, _, _, _, _, _, e⟩ <;> first | exact e | omega

theorem frameCheck_short {s : State} (h : s.pktlen.toNat < 7) : frameCheck s = .ok (some .tooShort) := by
  rcases frameCheck_cases s with
    ⟨_, e⟩ | ⟨_, e⟩ | ⟨_, _, _, _, _, e⟩ | ⟨_, _, _, _, _, _, _, e⟩ | ⟨_, _, _, _, _, _, _, e⟩ <;> first | exact e | omega

theorem frameCheck_mid {s : State} {h l : Byte} (h7 : 7 ≤ s.pktlen.toNat) (h8 : s.pktlen.toNat ≤ 1007)
    (h3 : Memory.read s.pkt 3 = some h) (h4 : Memory.read s.pkt 4 = some l) :
    frameCheck s = .ok (if s.pktlen.toNat - 7 = h.toNat * 256 + l.toNat then none else some .lengthMismatch) := by
  rw [← be16_toNat]
  rcases frameCheck_cases s with
    ⟨_, e⟩ | ⟨_, e⟩ | ⟨_, _, a, ha, hn, e⟩ | ⟨_, _, a, b, ha, hb, hn, e⟩ | ⟨_, _, a, b, ha, hb, hn, e⟩
  · omega
  · omega
  · rcases ha with rfl | rfl <;> simp_all
  · rw [h3] at ha; rw [h4] at hb; cases ha; cases hb; rw [if_neg hn]; exact e
  · rw [h3] at ha; rw [h4] at hb; cases ha; cases hb; rw [if_pos hn]; exact e

/-- The checks fault only on an unspecified length byte inside the frame. -/
theorem frameCheck_error {s : State} {f : Fault} (h : frameCheck s = .error f) :
    ∃ a, f = .unspecifiedByte .pkt a ∧ a < 1007 ∧ a < s.pktlen.toNat ∧ Memory.read s.pkt a = none := by
  rcases frameCheck_cases s with
    ⟨_, e⟩ | ⟨_, e⟩ | ⟨h7, h8, a, ha, hn, e⟩ | ⟨_, _, _, _, _, _, _, e⟩ | ⟨_, _, _, _, _, _, _, e⟩ <;> rw [e] at h <;> cases h
  exact ⟨a, rfl, by omega, by omega, hn⟩

/-- What is known when the checks pass. -/
theorem frameCheck_none {s : State} (h : frameCheck s = .ok none) :
    7 ≤ s.pktlen.toNat ∧ s.pktlen.toNat ≤ 1007
      ∧ ∃ h l, Memory.read s.pkt 3 = some h ∧ Memory.read s.pkt 4 = some l ∧ s.pktlen.toNat - 7 = (be16 h l).toNat := by
  rcases frameCheck_cases s with
    ⟨_, e⟩ | ⟨_, e⟩ | ⟨h7, h8, a, ha, hn, e⟩ | ⟨_, _, _, _, _, _, _, e⟩ | ⟨h1, h2, a, b, c, d, f, e⟩ <;> rw [e] at h <;> cases h
  exact ⟨h1, h2, a, b, c, d, f⟩

end Sys2Proof.Machine
end

