-- ==== Sys2Proof/Laws/PerInstr.lean ====
section
/-! SUPPORT. Statements made per command. `MatchesRow`: the command word of a command lies in a row of the operation-code map that
builds the command back (30_encoding.md R92, R103). -/

/-- The command is well formed, and its command word is selected by a row of R92 that stands for it, its operand field included. -/
def Sys2Proof.Laws.MatchesRow.Statement (i : Sys2Proof.Instr) : Prop :=
  i.wf = true ∧ ∃ r ∈ Sys2Proof.opcodeRows,
    r.selects (Sys2Proof.encode i) = true ∧ r.build (Sys2Proof.Machine.lo8 (Sys2Proof.encode i)) = i

namespace Sys2Proof.Laws.MatchesRow

theorem ckinit : Statement .ckinit := ⟨rfl, ⟨_, _, _, _⟩, List.mem_of_getElem? (i := 0) rfl, by decide, rfl⟩

theorem ckbyte (imm8 : Byte) : Statement (.ckbyte imm8) := by
  refine ⟨rfl, ⟨_, _, _, _⟩, List.mem_of_getElem? (i := 1) rfl, ?_, ?_⟩
  · revert imm8; decide
  · refine congrArg Instr.ckbyte ?_
    revert imm8; decide

theorem ckfin : Statement .ckfin := ⟨rfl, ⟨_, _, _, _⟩, List.mem_of_getElem? (i := 2) rfl, by decide, rfl⟩

theorem ckvfy : Statement .ckvfy := ⟨rfl, ⟨_, _, _, _⟩, List.mem_of_getElem? (i := 3) rfl, by decide, rfl⟩

theorem encode : Statement .encode := ⟨rfl, ⟨_, _, _, _⟩, List.mem_of_getElem? (i := 4) rfl, by decide, rfl⟩

theorem decode : Statement .decode := ⟨rfl, ⟨_, _, _, _⟩, List.mem_of_getElem? (i := 5) rfl, by decide, rfl⟩

theorem validate : Statement .validate := ⟨rfl, ⟨_, _, _, _⟩, List.mem_of_getElem? (i := 6) rfl, by decide, rfl⟩

end Sys2Proof.Laws.MatchesRow
end

