-- ==== Sys2Proof/Laws/Step.lean ====
section
/-! SUPPORT. The step: everything it can do when it answers a next state. -/

namespace Sys2Proof.Machine

theorem step_of_pending {s : State} {e : Event} {rest : List Event} (h : s.pending = e :: rest) :
    step s = perform e { s with pending := rest } := by
  unfold step
  rw [h]

/-- What is pending is no part of a buffer. -/
@[simp] theorem buffer_with_pending (s : State) (sp : BufSpace) (p : List Event) :
    ({ s with pending := p } : State).buffer sp = s.buffer sp := by
  cases sp <;> rfl

/-! One lemma per kind of event: what the step answers when the event lies inside the spaces (20_memory.md R63 to R67). -/

theorem step_regRead {s : State} {r : Reg} {rest : List Event} (h : s.pending = .regRead r.number :: rest) :
    step s = .next (deliver (.word (readReg s r)) { s with pending := rest }) := by
  rw [step_of_pending h]
  simp only [perform, ofNumber?_number]
  cases r <;> rfl

theorem step_regWrite {s : State} {r : Reg} {v : Nat} {rest : List Event} (h : s.pending = .regWrite r.number v :: rest)
    (hv : v ≤ 0xFFFF) : step s = writeReg r (BitVec.ofNat 16 v) { s with pending := rest } := by
  rw [step_of_pending h]
  simp only [perform, ofNumber?_number, if_pos hv]

theorem step_bufRead {s : State} {sp : BufSpace} {a : Nat} {rest : List Event} (h : s.pending = .bufRead sp a :: rest)
    (ha : a < sp.capacity) : step s = hostBufRead sp a { s with pending := rest } := by
  rw [step_of_pending h]
  simp only [perform, if_pos ha]

theorem step_bufWrite {s : State} {sp : BufSpace} {a v : Nat} {rest : List Event} (h : s.pending = .bufWrite sp a v :: rest)
    (ha : a < sp.capacity) (hv : v ≤ 0xFF) :
    step s = .next (({ s with pending := rest } : State).setBuffer sp
      (Memory.write (s.buffer sp) a (BitVec.ofNat 8 v))) := by
  rw [step_of_pending h]
  simp only [perform, if_pos ha, if_pos hv, buffer_with_pending]

theorem step_reset {s : State} {rest : List Event} (h : s.pending = .reset :: rest) :
    step s = .next { State.reset with pending := rest } := by
  rw [step_of_pending h]
  rfl

/-- A script line `WR <reg>, <v>` (30_encoding.md R104). -/
theorem step_wr {s : State} {r : Reg} {v : Word} {rest : List Event} (h : s.pending = wr r v :: rest) :
    step s = writeReg r v { s with pending := rest } := by
  have hv := v.isLt
  rw [step_regWrite (r := r) (v := v.toNat) h (by omega), BitVec.ofNat_toNat, BitVec.setWidth_eq]

theorem hostBufRead_of_some {s : State} {sp : BufSpace} {a : Nat} {b : Byte} (h : Memory.read (s.buffer sp) a = some b) :
    hostBufRead sp a s = .next (deliver (.byte b) s) := by
  unfold hostBufRead
  rw [h]

theorem hostBufRead_of_none {s : State} {sp : BufSpace} {a : Nat} (h : Memory.read (s.buffer sp) a = none) :
    hostBufRead sp a s = .fault (.unspecifiedByte sp a) := by
  unfold hostBufRead
  rw [h]

/-! What `CMD` executes (30_encoding.md R90, R94). -/

theorem runCommand_of_ok {cw : Word} {i : Instr} (s : State) (h : decode cw = .ok i) : runCommand cw s = exec i s := by
  unfold runCommand
  rw [h]

theorem runCommand_of_error {cw : Word} {e : DecodeError} (s : State) (h : decode cw = .error e) :
    runCommand cw s = .next (report .illegalCommand s) := by
  unfold runCommand
  rw [h, fail_eq]

theorem statusWord_toNat (s : State) :
    (statusWord s).toNat = s.err.toNat + 16 * s.valid.toNat + 32 * s.matched.toNat + 64 * s.odd.toNat := by
  unfold statusWord
  have := s.err.isLt
  have := Bool.toNat_le s.valid
  have := Bool.toNat_le s.matched
  have := Bool.toNat_le s.odd
  rw [BitVec.toNat_ofNat]
  omega

theorem step_next {s t : State} (h : step s = .next t) :
    (s.pending = [] ∧ t = s)
    ∨ ∃ e rest, s.pending = e :: rest ∧ perform e { s with pending := rest } = .next t := by
  unfold step at h
  split at h
  · next hp =>
    unfold idle at h
    cases h
    exact .inl ⟨hp, rfl⟩
  · next e rest hp => exact .inr ⟨e, rest, hp, h⟩

/-- A write of a command word (30_encoding.md R90, R94). -/
theorem runCommand_next {cw : Word} {s t : State} (h : runCommand cw s = .next t) :
    (∃ i, decode cw = .ok i ∧ exec i s = .next t) ∨ (∃ e, decode cw = .error e ∧ t = report .illegalCommand s) := by
  unfold runCommand at h
  split at h
  · next i hi => exact .inl ⟨i, hi, h⟩
  · next e he =>
    rw [fail_eq] at h
    cases h
    exact .inr ⟨e, he, rfl⟩

/-- A host write to a register other than `CMD` (20_memory.md R65). -/
theorem writeReg_next {r : Reg} {v : Word} {s t : State} (hr : r ≠ .cmd) (h : writeReg r v s = .next t) :
    ((r = .status ∨ r = .checksum ∨ r = .ckacc ∨ r = .cksum) ∧ t = s)
    ∨ (r = .seq ∧ t = { s with seq := lo8 v }) ∨ (r = .ack ∧ t = { s with ack := lo8 v })
    ∨ (r = .flags ∧ t = { s with flags := lo8 v }) ∨ (r = .length ∧ t = { s with length := v })
    ∨ (r = .pktlen ∧ t = { s with pktlen := v }) ∨ (r = .expect ∧ t = { s with expect := v }) := by
  cases r <;> first | exact absurd rfl hr | (simp only [writeReg, Host.Outcome.next.injEq] at h; simp [← h])

/-- Everything an event can do when it answers a next state (20_memory.md R62 to R67, 70_reset_and_hazards.md R210). -/
theorem perform_next {e : Event} {s t : State} (h : perform e s = .next t) :
    (∃ r : Reg, e = .regRead r.number ∧ t = deliver (.word (readReg s r)) s)
    ∨ (∃ v, v ≤ 0xFFFF ∧ e = .regWrite 0 v ∧ runCommand (BitVec.ofNat 16 v) s = .next t)
    ∨ (∃ (r : Reg) (v : Nat), r ≠ .cmd ∧ v ≤ 0xFFFF ∧ e = .regWrite r.number v ∧ writeReg r (BitVec.ofNat 16 v) s = .next t)
    ∨ (∃ sp a b, a < BufSpace.capacity sp ∧ Memory.read (s.buffer sp) a = some b ∧ e = .bufRead sp a ∧ t = deliver (.byte b) s)
    ∨ (∃ sp a v, a < BufSpace.capacity sp ∧ v ≤ 0xFF ∧ e = .bufWrite sp a v
        ∧ t = s.setBuffer sp (Memory.write (s.buffer sp) a (BitVec.ofNat 8 v)))
    ∨ (e = .reset ∧ t = resetBlock s) := by
  cases e with
  | regRead n =>
    simp only [perform] at h
    split at h
    · cases h
    · next r hr =>
      cases h
      exact .inl ⟨r, by rw [ofNumber?_eq_some.mp hr], rfl⟩
  | regWrite n v =>
    simp only [perform] at h
    split at h
    · cases h
    · next r hr =>
      split_ifs at h with hv
      rw [ofNumber?_eq_some.mp hr]
      by_cases hc : r = .cmd
      · subst hc
        exact .inr (.inl ⟨v, hv, rfl, h⟩)
      · exact .inr (.inr (.inl ⟨r, v, hc, hv, rfl, h⟩))
  | bufRead sp a =>
    simp only [perform, hostBufRead] at h
    split_ifs at h with ha
    split at h
    · cases h
    · next b hb =>
      cases h
      exact .inr (.inr (.inr (.inl ⟨sp, a, b, ha, hb, rfl, rfl⟩)))
  | bufWrite sp a v =>
    simp only [perform] at h
    split_ifs at h with ha hv
    cases h
    exact .inr (.inr (.inr (.inr (.inl ⟨sp, a, v, ha, hv, rfl, rfl⟩))))
  | reset =>
    simp only [perform] at h
    cases h
    exact .inr (.inr (.inr (.inr (.inr ⟨rfl, rfl⟩))))

/-! Runs: one step after another, stopping at the first fault or refusal. -/

theorem run_zero (s : State) : Host.Core.run core 0 s = .next s := rfl

theorem coreRun_of_next {M : Host.Core} {k : Nat} {s t : M.State} (h : M.step s = .next t) :
    Host.Core.run M (k + 1) s = Host.Core.run M k t := by
  rw [Host.Core.run, h]

theorem coreRun_succ {M : Host.Core} {k : Nat} {s u : M.State} (h : Host.Core.run M (k + 1) s = .next u) :
    ∃ t, M.step s = .next t ∧ Host.Core.run M k t = .next u := by
  rw [Host.Core.run] at h
  split at h
  · next t ht => exact ⟨t, ht, h⟩
  · cases h
  · cases h

theorem run_succ_of_next {k : Nat} {s t : State} (h : step s = .next t) :
    Host.Core.run core (k + 1) s = Host.Core.run core k t :=
  coreRun_of_next (M := core) h

theorem run_succ {k : Nat} {s u : State} (h : Host.Core.run core (k + 1) s = .next u) :
    ∃ t, step s = .next t ∧ Host.Core.run core k t = .next u :=
  coreRun_succ (M := core) h

/-- A run of `j + k` steps is a run of `j` and then a run of `k`. -/
theorem run_add_of_next {j k : Nat} {s t : State} (h : Host.Core.run core j s = .next t) :
    Host.Core.run core (j + k) s = Host.Core.run core k t := by
  induction j generalizing s with
  | zero =>
    cases h
    rw [Nat.zero_add]
  | succ j ih =>
    obtain ⟨u, hu, hr⟩ := run_succ h
    rw [Nat.succ_add, run_succ_of_next hu]
    exact ih hr

/-! What no command and no access touches. -/

theorem exec_pending {s t : State} {i : Instr} (he : exec i s = .next t) :
    t.pending = s.pending ∧ t.returned = s.returned := by
  cases i with
  | ckinit => cases he; exact ⟨rfl, rfl⟩
  | ckbyte b => cases he; exact ⟨rfl, rfl⟩
  | ckfin => cases he; exact ⟨rfl, rfl⟩
  | ckvfy => cases he; exact ⟨rfl, rfl⟩
  | encode => rcases execEncode_next he with ⟨_, rfl⟩ | ⟨_, P, _, _, rfl⟩ <;> simp
  | decode => rcases execDecode_next he with ⟨r, _, rfl⟩ | ⟨_, P, _, _, rfl⟩ <;> simp
  | validate =>
    rcases execValidate_next he with ⟨r, _, h⟩ | ⟨_, F, _, _, h⟩ <;> (rw [verdict_eq] at h; cases h; simp)

theorem perform_pending {s t : State} {e : Event} (he : perform e s = .next t) : t.pending = s.pending := by
  rcases perform_next he with
    ⟨r, rfl, rfl⟩ | ⟨v, hv, rfl, h⟩ | ⟨r, v, hr, hv, rfl, h⟩ | ⟨sp, a, b, _, _, rfl, rfl⟩ | ⟨sp, a, v, _, _, rfl, rfl⟩ | ⟨rfl, rfl⟩
  · rfl
  · rcases runCommand_next h with ⟨i, _, h⟩ | ⟨_, _, rfl⟩
    · exact (exec_pending h).1
    · rfl
  · rcases writeReg_next hr h with ⟨_, rfl⟩ | ⟨_, rfl⟩ | ⟨_, rfl⟩ | ⟨_, rfl⟩ | ⟨_, rfl⟩ | ⟨_, rfl⟩ | ⟨_, rfl⟩ <;> rfl
  · rfl
  · cases sp <;> rfl
  · rfl

/-! The command an event starts. -/

theorem command?_regWrite0 {v : Nat} (hv : v ≤ 0xFFFF) :
    (Event.regWrite 0 v).command? = match decode (BitVec.ofNat 16 v) with | .ok i => some i | .error _ => none := by
  have : (Event.regWrite 0 v).commandWord? = some (BitVec.ofNat 16 v) := by simp [Event.commandWord?, Reg.number, hv]
  cases h : decode (BitVec.ofNat 16 v) <;> simp [Event.command?, this, h]

theorem commandWord?_other {r : Reg} {v : Nat} (hr : r ≠ .cmd) : (Event.regWrite r.number v).commandWord? = none := by
  have : ¬ (r.number = Reg.cmd.number ∧ v ≤ 0xFFFF) := by
    rintro ⟨h, _⟩; cases r <;> simp [Reg.number] at h hr
  simp only [Event.commandWord?, if_neg this]

theorem command?_other {r : Reg} {v : Nat} (hr : r ≠ .cmd) : (Event.regWrite r.number v).command? = none := by
  simp only [Event.command?, commandWord?_other hr]

end Sys2Proof.Machine
end

