-- ==== Sys2Proof/Tests/Slice0.lean ====
section
/-! SUPPORT. Tests, each on one small state, and for every statement with hypotheses a state and operands that meet them. Every expected
value is one of spec/95_test_vectors.md (its id stands before the test) or is worked out from the rule named. -/

namespace Sys2Proof.Tests

open Sys2Proof.Machine

/-- The reset state with these events pending. -/
def host (es : List Event) : State := { State.reset with pending := es }

/-- `s` with the frame `F` at offset 0 of `PKT` and `PKTLEN = |F|`. -/
def withFrame (F : List Byte) (s : State) : State :=
  { s with pkt := Memory.writeAll [] 0 F, pktlen := BitVec.ofNat 16 F.length }

/-- `s` with the payload `P` at offset 0 of `PAY` and `LENGTH = |P|`. -/
def withPayload (P : List Byte) (s : State) : State :=
  { s with pay := Memory.writeAll [] 0 P, length := BitVec.ofNat 16 P.length }

theorem withFrame_pktlen {F : List Byte} (s : State) (h : F.length ≤ 1007) : (withFrame F s).pktlen.toNat = F.length := by
  rw [withFrame, BitVec.toNat_ofNat, Nat.mod_eq_of_lt (by omega)]

theorem withPayload_length {P : List Byte} (s : State) (h : P.length ≤ 1000) : (withPayload P s).length.toNat = P.length := by
  rw [withPayload, BitVec.toNat_ofNat, Nat.mod_eq_of_lt (by omega)]

/-- A buffer filled with `n` bytes 0x41. -/
@[irreducible] def fill (n : Nat) : Memory := Memory.writeAll [] 0 (List.replicate n 0x41#8)

theorem read_fill {n a : Nat} (h : a < n) : Memory.read (fill n) a = some 0x41#8 := by
  rw [fill, holds_writeAll [] _ a (by rw [List.length_replicate]; exact h), List.getElem?_replicate_of_lt h]

/-- The frame E1. -/
def frameE1 : List Byte := [0x00#8, 0x00#8, 0x08#8, 0x00#8, 0x02#8, 0x8C#8, 0xB7#8, 0x48#8, 0x69#8]

/-- The reset state with the packet record of E1. -/
def packetE1 : State := { withPayload [0x48#8, 0x69#8] State.reset with flags := 0x08#8 }

/-- `CKACC`, `ODD` and `ERR` after a command. -/
def engine? (o : Host.Outcome State Fault Refusal) : Option (Word × Bool × BitVec 4) :=
  (endState? o).map fun t => (t.ckacc, t.odd, t.err)

/-- `VALID` and `ERR` after a command. -/
def verdict? (o : Host.Outcome State Fault Refusal) : Option (Bool × BitVec 4) :=
  (endState? o).map fun t => (t.valid, t.err)

/-! Well-formedness: an ill-formed event for each check (R68), and the last well-formed one beside it. -/

theorem test_wf_regRead_11 : (Event.regRead 11).wf = false ∧ (Event.regRead 10).wf = true := by decide
theorem test_wf_regWrite_11 : (Event.regWrite 11 0).wf = false ∧ (Event.regWrite 10 0).wf = true := by decide
theorem test_wf_regWrite_datum : (Event.regWrite 10 0x10000).wf = false ∧ (Event.regWrite 10 0xFFFF).wf = true := by decide
theorem test_wf_bufRead_pay : (Event.bufRead .pay 1000).wf = false ∧ (Event.bufRead .pay 999).wf = true := by decide
theorem test_wf_bufRead_pkt : (Event.bufRead .pkt 1007).wf = false ∧ (Event.bufRead .pkt 1006).wf = true := by decide
theorem test_wf_bufWrite_pay : (Event.bufWrite .pay 1000 0).wf = false ∧ (Event.bufWrite .pay 999 0).wf = true := by decide
theorem test_wf_bufWrite_pkt : (Event.bufWrite .pkt 1007 0).wf = false ∧ (Event.bufWrite .pkt 1006 0).wf = true := by decide
theorem test_wf_bufWrite_datum : (Event.bufWrite .pay 0 256).wf = false ∧ (Event.bufWrite .pay 0 255).wf = true := by decide

/-! Decoding, each word written out from R90 to R93: `op` in bits 15:8, `imm8` in bits 7:0 (95_test_vectors.md 2.5). -/

theorem test_decode_ckinit : decode 0b0000000100000000#16 = .ok .ckinit := by decide
theorem test_decode_ckbyte : decode 0b0000001001010110#16 = .ok (.ckbyte 0b01010110#8) := by decide
theorem test_decode_ckbyte_high : decode 0b0000001010000001#16 = .ok (.ckbyte 0b10000001#8) := by decide
theorem test_decode_ckfin : decode 0b0000001100000000#16 = .ok .ckfin := by decide
theorem test_decode_ckvfy : decode 0b0000010000000000#16 = .ok .ckvfy := by decide
theorem test_decode_encode : decode 0b0001000000000000#16 = .ok .encode := by decide
theorem test_decode_decode : decode 0b0001000100000000#16 = .ok .decode := by decide
theorem test_decode_validate : decode 0b0001001000000000#16 = .ok .validate := by decide
theorem test_decode_illegal_operand :
    ([0x0101#16, 0x0301#16, 0x04FF#16, 0x1001#16, 0x1180#16, 0x1201#16].all fun cw =>
      decode cw == .error (.operandNotZero (hi8 cw) (lo8 cw))) = true := by decide
theorem test_decode_illegal_op :
    ([0x0000#16, 0x0500#16, 0x0F00#16, 0x1300#16, 0x2000#16, 0xFFFF#16].all fun cw =>
      decode cw == .error (.unassignedOp (hi8 cw))) = true := by decide
theorem test_decodeTableWord : decodeTableWord 16 0x0256 = some (.ckbyte 0x56#8) ∧ decodeTableWord 16 0x1101 = none := by decide

/-! The checksum function: K1, K5, K11, K12, K14, K18. -/

theorem test_cksum_K1_K5_K11 :
    cksum [] = 0xFFFF#16 ∧ cksum [0x01#8] = 0xFEFF#16 ∧ cksum [0x12#8, 0x34#8, 0x56#8] = 0x97CB#16 := by decide
theorem test_cksum_K12_K14_K18 :
    cksum [0xAB#8, 0xCD#8, 0xEF#8] = 0x6531#16 ∧ cksum [0xFF#8, 0xFF#8, 0x00#8, 0x01#8] = 0xFFFE#16
      ∧ cksum [0x00#8, 0x01#8, 0xF2#8, 0x03#8, 0xF4#8, 0xF5#8, 0xF6#8, 0xF7#8] = 0x220D#16 := by decide

/-! The engine commands: T3, T4, and R125. -/

theorem test_ckinit : engine? (exec .ckinit { State.reset with ckacc := 0x6834#16, odd := true, err := 6 }) = some (0, false, 0) := by decide
theorem test_ckbyte_carry_even :
    engine? (exec (.ckbyte 0xFF#8) { State.reset with ckacc := 0xFFFF#16 }) = some (0xFF00#16, true, 0) := by decide
theorem test_ckbyte_carry_odd :
    engine? (exec (.ckbyte 0xFF#8) { State.reset with ckacc := 0xFFFF#16, odd := true }) = some (0x00FF#16, false, 0) := by decide
theorem test_ckfin :
    (endState? (exec .ckfin { State.reset with ckacc := 0x6834#16, err := 6 })).map (fun t => (t.cksum, t.err)) = some (0x97CB#16, 0) := by
  decide
theorem test_ckvfy_match :
    (endState? (exec .ckvfy { State.reset with ckacc := 0x6834#16, expect := 0x97CB#16 })).map (·.matched) = some true := by decide
theorem test_ckvfy_mismatch :
    (endState? (exec .ckvfy { State.reset with ckacc := 0x6834#16, expect := 0x97CA#16, matched := true })).map
      (fun t => (t.matched, t.err)) = some (false, 0) := by decide

/-! The codec commands: E1, E12, E13; V9, V7, V2; V9, V12, V17, V19. -/

theorem test_encode_E1 :
    (endState? (exec .encode packetE1)).map (fun t => (t.err, t.pktlen, t.checksum, readBytes .pkt t.pkt 0 9 |>.toOption))
      = some (0, 9#16, 0x8CB7#16, some frameE1) := by decide
theorem test_encode_E13 :
    (endState? (exec .encode { State.reset with length := 1001#16 })).map (fun t => (t.err, t.pktlen, t.pkt)) = some (4, 0, []) := by decide
theorem test_decode_V9 :
    (endState? (exec .decode (withFrame frameE1 State.reset))).map
        (fun t => ((t.err, t.flags), (t.length, t.checksum), t.pay)) =
      some ((0, 0x08#8), (2#16, 0x8CB7#16), [(0, 0x48#8), (1, 0x69#8)]) := by decide
theorem test_decode_V7 :
    (endState? (exec .decode (withFrame [0x00#8, 0x01#8, 0x02#8, 0x00#8, 0x01#8, 0xFD#8, 0xFE#8] State.reset))).map
      (fun t => (t.err, t.ack, t.length)) = some (2, 0, 0) := by decide
theorem test_validate_V9_V12 :
    verdict? (exec .validate (withFrame frameE1 State.reset)) = some (true, 0)
      ∧ verdict? (exec .validate (withFrame (frameE1.set 8 0x68#8) State.reset)) = some (false, 3) := by decide
theorem test_validate_V16_V17 :
    verdict? (exec .validate (withFrame [0x00#8, 0x00#8, 0x08#8, 0x00#8, 0x02#8, 0x00#8, 0x00#8, 0xFF#8, 0xF5#8] State.reset)) = some (true, 0)
      ∧ verdict? (exec .validate (withFrame [0x00#8, 0x00#8, 0x08#8, 0x00#8, 0x02#8, 0xFF#8, 0xFF#8, 0xFF#8, 0xF5#8] State.reset)) =
        some (false, 3) := by decide

/-! The port: 95_test_vectors.md 2.5 and 2.6. -/

theorem test_illegal_word_status :
    (endState? (step { host [.regWrite 0 0x0301] with ckacc := 0x6834#16, odd := true, valid := true, matched := true })).map
      (fun t => (statusWord t, t.ckacc)) = some (0x0076#16, 0x6834#16) := by decide
theorem test_wr_seq_drops_high_byte :
    (endState? (Host.Core.run core 2 (host [.regWrite 2 0x01FF, .regRead 2]))).map (·.returned) = some [.word 0x00FF#16] := by decide
theorem test_wr_status_ignored :
    (endState? (Host.Core.run core 2 (host [.regWrite 1 0xFFFF, .regRead 1]))).map (·.returned) = some [.word 0x0000#16] := by decide
theorem test_wb_rb_top :
    (endState? (Host.Core.run core 3 (host [.bufWrite .pay 999 0xA5, .bufRead .pay 999, .regRead 5]))).map (·.returned)
      = some [.byte 0xA5#8, .word 0x0000#16] := by decide
theorem test_rb_unspecified : step (host [.bufRead .pkt 0]) = .fault (.unspecifiedByte .pkt 0) := rfl
theorem test_withFetchWord_runs :
    engine? (step (State.reset.withFetchWord 16 0x0256)) = some (0x5600#16, true, 0) := by decide

/-! Witnesses: states and operands that meet the hypotheses of a statement, one per clause, at the boundary values. -/

theorem test_witness_DecodeAndEncodeAreInverse : (Instr.ckbyte 0xFF#8).wf = true ∧ decode 0x02FF#16 = .ok (.ckbyte 0xFF#8) := by decide
theorem test_witness_LegalWordsAreThe262 : ¬ ∃ i, decode 0x0301#16 = .ok i := by
  rintro ⟨i, h⟩
  have : decode 0x0301#16 = .error (.operandNotZero 0x03#8 0x01#8) := by decide
  rw [this] at h; cases h
theorem test_witness_IllegalWordOnlySetsErr :
    ∀ v ∈ [0x0000, 0x01FF, 0x0301, 0xFFFF], v ≤ 0xFFFF ∧ (host [.regWrite 0 v]).pending = .regWrite 0 v :: []
      ∧ v ∉ [0x0100, 0x0300, 0x0400, 0x1000, 0x1100, 0x1200] ∧ ¬ (0x0200 ≤ v ∧ v ≤ 0x02FF) := by decide
theorem test_witness_StepRunsTheDecodedCommand :
    (host [.regWrite 0 0x02FF]).pending = [.regWrite 0 0x02FF] ∧ decode (BitVec.ofNat 16 0x02FF) = .ok (.ckbyte 0xFF#8)
      ∧ decodeTableWord 16 0x02FF = some (.ckbyte 0xFF#8) := by decide
theorem test_witness_IdleStepChangesNothing : State.reset.pending = [] := rfl
theorem test_witness_RegReadReturnsTheRegister :
    ∀ n ∈ [0, 1, 2, 3, 4, 5, 6, 7, 8, 9, 10], n ≤ 10 ∧ (host [.regRead n, .regRead n]).pending = [.regRead n, .regRead n] := by decide
theorem test_witness_RegWriteStoresRunsOrIsIgnored :
    ∀ n ∈ [0, 1, 2, 3, 4, 5, 6, 7, 8, 9, 10], ∀ v ∈ [0, 0xFFFF], v ≤ 0xFFFF ∧ (host [.regWrite n v]).pending = [.regWrite n v] := by decide
theorem test_witness_RegWriteStoresRunsOrIsIgnored_legal : decode (BitVec.ofNat 16 0x0100) = .ok .ckinit := by decide
theorem test_witness_RegWriteStoresRunsOrIsIgnored_illegal : ∀ i, decode (BitVec.ofNat 16 0xFFFF) ≠ .ok i := by
  intro i h
  have : decode (BitVec.ofNat 16 0xFFFF) = .error (.unassignedOp 0xFF#8) := by decide
  rw [this] at h; cases h
theorem test_witness_BufReadReturnsTheByte :
    999 < BufSpace.pay.capacity ∧ 1006 < BufSpace.pkt.capacity
      ∧ Memory.read ({ host [.bufRead .pkt 1006] with pkt := [(1006, 0x5A#8)] }.buffer .pkt) 1006 = some 0x5A#8
      ∧ Memory.read ((host [.bufRead .pay 999]).buffer .pay) 999 = none := by decide
theorem test_witness_BufWriteStoresTheByte :
    999 < BufSpace.pay.capacity ∧ 1006 < BufSpace.pkt.capacity ∧ 0xFF ≤ 0xFF
      ∧ (host [.bufWrite .pkt 1006 0xFF]).pending = [.bufWrite .pkt 1006 0xFF] ∧ BufSpace.pay ≠ BufSpace.pkt := by decide
theorem test_witness_BufWriteStoresTheByte_stays :
    packetE1.pending.head? ≠ some .reset ∧ (∃ t, step packetE1 = .next t) ∧ Memory.read (packetE1.buffer .pay) 1 ≠ none :=
  ⟨by decide, ⟨_, rfl⟩, by decide⟩
theorem test_witness_RefusedExactlyOutsideTheSpaces :
    step (host [.regRead 11]) = .refused (.noSuchRegister 11) ∧ step (host [.regWrite 11 0]) = .refused (.noSuchRegister 11)
      ∧ step (host [.regWrite 10 0x10000]) = .refused (.datumTooWide 0x10000)
      ∧ step (host [.bufRead .pay 1000]) = .refused (.noSuchOffset .pay 1000)
      ∧ step (host [.bufWrite .pkt 1007 0]) = .refused (.noSuchOffset .pkt 1007)
      ∧ step (host [.bufWrite .pay 999 256]) = .refused (.datumTooWide 256) := ⟨rfl, rfl, rfl, rfl, rfl, rfl⟩
theorem test_witness_RefusedExactlyOutsideTheSpaces_inside :
    (∃ t, step (host [.regRead 10]) = .next t) ∧ (∃ t, step (host [.regWrite 10 0xFFFF]) = .next t)
      ∧ (∃ t, step (host [.bufWrite .pay 999 255]) = .next t) ∧ ∃ t, step (host [.bufWrite .pkt 1006 255]) = .next t :=
  ⟨⟨_, rfl⟩, ⟨_, rfl⟩, ⟨_, rfl⟩, ⟨_, rfl⟩⟩

/-- A state in which every buffer byte is specified. -/
def full : State :=
  { host [.regWrite 0 0x1000] with pay := fill 1000, pkt := fill 1007 }

theorem test_witness_InRangeEventsAlwaysStep :
    full.pending = [.regWrite 0 0x1000] ∧ (Event.regWrite 0 0x1000).wf = true
      ∧ ∀ space a, a < BufSpace.capacity space → Memory.read (full.buffer space) a ≠ none := by
  refine ⟨rfl, rfl, fun space a h => ?_⟩
  cases space
  · show Memory.read (fill 1000) a ≠ none
    exact fun e => Option.some_ne_none _ ((read_fill (show a < _ from h)).symm.trans e)
  · show Memory.read (fill 1007) a ≠ none
    exact fun e => Option.some_ne_none _ ((read_fill (show a < _ from h)).symm.trans e)
theorem test_witness_ReadSeesTheLatestWrite :
    (host [.bufWrite .pkt 1006 0xFF, .bufRead .pkt 1006]).pending = [.bufWrite .pkt 1006 0xFF, .bufRead .pkt 1006]
      ∧ (host [.regWrite 4 0xFFFF, .regRead 4]).pending = [.regWrite 4 0xFFFF, .regRead 4] ∧ 4 ∈ [2, 3, 4, 5, 7, 10]
      ∧ (host [.regWrite 5 0xFFFF, .regRead 5]).pending = [.regWrite 5 0xFFFF, .regRead 5] ∧ 5 ∈ [2, 3, 4, 5, 7, 10] := by decide
theorem test_witness_LoadAbbreviationsFillTheBuffer :
    (host (loadPkt (List.replicate 1007 0x41#8))).pending = loadPkt (List.replicate 1007 0x41#8) ++ []
      ∧ (List.replicate 1007 0x41#8).length ≤ 1007
      ∧ (host (loadPay (List.replicate 1000 0x41#8))).pending = loadPay (List.replicate 1000 0x41#8) ++ []
      ∧ (List.replicate 1000 0x41#8).length ≤ 1000 :=
  ⟨(List.append_nil _).symm, List.length_replicate.le, (List.append_nil _).symm, List.length_replicate.le⟩
theorem test_witness_ResetEventForgetsEverything : ({ host [.reset] with err := 6, seq := 1 } : State).pending = [.reset] := rfl
theorem test_witness_OcAddIsFoldOfTheSum : 0xFFFF < (0xFFFF#16).toNat + (0x0001#16).toNat := by decide
theorem test_witness_EngineArithmeticLaws :
    (0x1234#16 ≠ 0x0000#16) ∧ (words (pad [0x01#8, 0x02#8, 0x03#8])).Perm (words (pad [0x03#8, 0x00#8, 0x01#8, 0x02#8])) := by decide
theorem test_witness_SingleBitFlipChangesTheChecksum : 2 < [0x12#8, 0x34#8, 0x56#8].length ∧ 7 < 8 := by decide
theorem test_witness_CkbyteAbsorbsOneByte : ({ State.reset with ckacc := 0x0001#16 } : State).ckacc ≠ 0 := by decide
theorem test_witness_StreamStateFollowsTheBytes :
    State.StreamOf [] (host [.regWrite 0 0x0256, .regRead 8])
      ∧ (host [.regWrite 0 0x0256, .regRead 8]).pending = [.regWrite 0 0x0256, .regRead 8] ++ []
      ∧ ∃ t, Host.Core.run core 2 (host [.regWrite 0 0x0256, .regRead 8]) = .next t := ⟨⟨rfl, rfl⟩, rfl, ⟨_, rfl⟩⟩
theorem test_witness_StreamStateFollowsTheBytes_results : State.StreamOf [0x56#8] { State.reset with ckacc := 0x5600#16, odd := true } := by
  decide
theorem test_witness_StreamContinuesAfterCkfin :
    State.StreamOf [0x56#8]
      { host (command .ckfin :: ([0x78#8].map fun b => command (.ckbyte b)) ++ command .ckfin :: []) with ckacc := 0x5600#16, odd := true } := by
  decide
theorem test_witness_CalculateAndVerifyScripts :
    (host (ckStream [0x12#8] ++ [command .ckfin])).pending = ckStream [0x12#8] ++ command .ckfin :: []
      ∧ (host (ckStream [] ++ [wr .expect 0xFFFF#16, command .ckvfy])).pending = ckStream [] ++ wr .expect 0xFFFF#16 :: command .ckvfy :: [] := by
  decide
theorem test_witness_WireFormatFieldOffsets :
    frameE1 = ser 0x00#8 0x00#8 0x08#8 0x0002#16 0x8CB7#16 [0x48#8, 0x69#8] := by decide
theorem test_witness_EncodedFrameWordSum : (List.replicate 1000 0xFF#8).length ≤ 1000 := List.length_replicate.le

/-! ENCODE: `LENGTH` 1001 and 65535; 0; 1000; an unspecified payload byte at the ends of the range. -/

theorem test_witness_EncodeBuildsTheFrame_tooLarge :
    1000 < ({ State.reset with length := 1001#16 } : State).length.toNat
      ∧ 1000 < ({ State.reset with length := 0xFFFF#16 } : State).length.toNat := by decide
theorem test_witness_EncodeBuildsTheFrame_empty :
    ([] : List Byte).length = State.reset.length.toNat ∧ Memory.Holds State.reset.pay [] := by decide
theorem test_witness_EncodeBuildsTheFrame_longest :
    ∀ P : List Byte, P = List.replicate 1000 0x41#8 →
      P.length = (withPayload P State.reset).length.toNat ∧ P.length ≤ 1000 ∧ Memory.Holds (withPayload P State.reset).pay P := by
  intro P hP
  have hl : P.length ≤ 1000 := by rw [hP, List.length_replicate]
  exact ⟨(withPayload_length _ hl).symm, hl, holds_writeAll _ _⟩
theorem test_witness_EncodeBuildsTheFrame_unspecified :
    ({ State.reset with length := 1000#16 } : State).length.toNat ≤ 1000
      ∧ 999 < ({ State.reset with length := 1000#16 } : State).length.toNat
      ∧ Memory.read ({ State.reset with length := 1000#16 } : State).pay 999 = none := by decide
theorem test_witness_EncodeEstablishesThePacketInvariant : ∃ t, exec .encode packetE1 = .next t ∧ t.err = 0 := ⟨_, rfl, rfl⟩

/-! DECODE and VALIDATE: `PKTLEN` 1008, 6, a mismatch at 7 and at 1007, a frame of 7 and of 1007 bytes, unspecified bytes. -/


/-- The reset state with a frame length and some bytes of `PKT`. -/
def probe (n : Word) (m : Memory) : State := { State.reset with pktlen := n, pkt := m }

theorem test_witness_DecodeUnpacksTheFrame_lengths :
    1007 < (probe 1008#16 []).pktlen.toNat ∧ 1007 < (probe 0xFFFF#16 []).pktlen.toNat ∧ (probe 6#16 []).pktlen.toNat < 7 := by decide
theorem test_witness_DecodeUnpacksTheFrame_mismatch_shortest :
    7 ≤ (probe 7#16 [(3, 0x00#8), (4, 0x01#8)]).pktlen.toNat ∧ (probe 7#16 [(3, 0x00#8), (4, 0x01#8)]).pktlen.toNat ≤ 1007
      ∧ Memory.read (probe 7#16 [(3, 0x00#8), (4, 0x01#8)]).pkt 3 = some 0x00#8
      ∧ Memory.read (probe 7#16 [(3, 0x00#8), (4, 0x01#8)]).pkt 4 = some 0x01#8
      ∧ (probe 7#16 [(3, 0x00#8), (4, 0x01#8)]).pktlen.toNat - 7 ≠ (0x00#8).toNat * 256 + (0x01#8).toNat := by decide
theorem test_witness_DecodeUnpacksTheFrame_mismatch_longest :
    7 ≤ (probe 1007#16 [(3, 0x03#8), (4, 0xE7#8)]).pktlen.toNat ∧ (probe 1007#16 [(3, 0x03#8), (4, 0xE7#8)]).pktlen.toNat ≤ 1007
      ∧ Memory.read (probe 1007#16 [(3, 0x03#8), (4, 0xE7#8)]).pkt 3 = some 0x03#8
      ∧ Memory.read (probe 1007#16 [(3, 0x03#8), (4, 0xE7#8)]).pkt 4 = some 0xE7#8
      ∧ (probe 1007#16 [(3, 0x03#8), (4, 0xE7#8)]).pktlen.toNat - 7 ≠ (0x03#8).toNat * 256 + (0xE7#8).toNat := by decide
theorem test_witness_DecodeUnpacksTheFrame_shortest :
    (withFrame [0x00#8, 0x01#8, 0x02#8, 0x00#8, 0x00#8, 0xFD#8, 0xFE#8] State.reset).pktlen.toNat = 7 + ([] : List Byte).length
      ∧ Memory.Holds (withFrame [0x00#8, 0x01#8, 0x02#8, 0x00#8, 0x00#8, 0xFD#8, 0xFE#8] State.reset).pkt
        ([0x00#8, 0x01#8, 0x02#8, 0x00#8, 0x00#8, 0xFD#8, 0xFE#8] ++ [])
      ∧ (0x00#8).toNat * 256 + (0x00#8).toNat = ([] : List Byte).length := by decide
theorem test_witness_DecodeUnpacksTheFrame_longest :
    ∀ P : List Byte, P = List.replicate 1000 0x41#8 → ∀ F, F = [0x00#8, 0x00#8, 0x08#8, 0x03#8, 0xE8#8, 0x9C#8, 0x88#8] ++ P →
      (withFrame F State.reset).pktlen.toNat = 7 + P.length ∧ P.length ≤ 1000 ∧ (0x03#8).toNat * 256 + (0xE8#8).toNat = P.length
        ∧ Memory.Holds (withFrame F State.reset).pkt F := by
  intro P hP F hF
  have hl : P.length = 1000 := by rw [hP, List.length_replicate]
  have hn : F.length = 7 + P.length := by rw [hF, List.length_append]; rfl
  exact ⟨by rw [withFrame_pktlen _ (by omega), hn], by omega, by rw [hl]; rfl, holds_writeAll _ _⟩
theorem test_witness_DecodeUnpacksTheFrame_unspecified_length :
    7 ≤ (probe 7#16 []).pktlen.toNat ∧ (probe 7#16 []).pktlen.toNat ≤ 1007 ∧ Memory.read (probe 7#16 []).pkt 3 = none
      ∧ Memory.read (probe 7#16 [(3, 0x00#8)]).pkt 4 = none := by decide
theorem test_witness_DecodeUnpacksTheFrame_unspecified_last :
    (probe 1007#16 [(3, 0x03#8), (4, 0xE8#8)]).pktlen.toNat ≤ 1007
      ∧ Memory.read (probe 1007#16 [(3, 0x03#8), (4, 0xE8#8)]).pkt 3 = some 0x03#8
      ∧ Memory.read (probe 1007#16 [(3, 0x03#8), (4, 0xE8#8)]).pkt 4 = some 0xE8#8
      ∧ (probe 1007#16 [(3, 0x03#8), (4, 0xE8#8)]).pktlen.toNat - 7 = (0x03#8).toNat * 256 + (0xE8#8).toNat
      ∧ 1006 < (probe 1007#16 [(3, 0x03#8), (4, 0xE8#8)]).pktlen.toNat
      ∧ Memory.read (probe 1007#16 [(3, 0x03#8), (4, 0xE8#8)]).pkt 1006 = none := by decide
theorem test_witness_DecodeDoesNotCheckTheChecksum :
    (withFrame frameE1 State.reset).pktlen.toNat = frameE1.length ∧ Memory.Holds (withFrame frameE1 State.reset).pkt frameE1
      ∧ wfFrame frameE1 = true := by decide
theorem test_witness_DecodedPayloadFits : ∃ t, exec .decode (withFrame frameE1 State.reset) = .next t ∧ t.err = 0 := ⟨_, rfl, rfl⟩
/-- VALIDATE's statement has DECODE's hypotheses, met by the witnesses above, and the two outcomes of the checksum comparison. -/
theorem test_witness_ValidateReportsTheVerdict_checksum :
    cksum ([0x00#8, 0x00#8, 0x08#8, 0x00#8, 0x02#8, 0x00#8, 0x00#8] ++ [0x48#8, 0x69#8]) = be16 0x8C#8 0xB7#8
      ∧ cksum ([0x00#8, 0x00#8, 0x08#8, 0x00#8, 0x02#8, 0x00#8, 0x00#8] ++ [0x48#8, 0x68#8]) ≠ be16 0x8C#8 0xB7#8
      ∧ (0x00#8).toNat * 256 + (0x02#8).toNat = [0x48#8, 0x69#8].length := by decide
theorem test_witness_ValidateReportsTheVerdict_next : ∃ t, exec .validate (withFrame frameE1 State.reset) = .next t ∧ t.valid = true :=
  ⟨_, rfl, rfl⟩
theorem test_witness_DecodeAfterValidVerdictSucceeds :
    ∃ t u : State, exec .validate (withFrame frameE1 State.reset) = .next t ∧ t.valid = true ∧ u.pkt = t.pkt ∧ u.pktlen = t.pktlen :=
  ⟨_, _, rfl, rfl, rfl, rfl⟩
theorem test_witness_EncodedFrameValidates :
    ∃ t u : State, exec .encode packetE1 = .next t ∧ t.err = 0 ∧ u.pkt = t.pkt ∧ u.pktlen = t.pktlen := ⟨_, _, rfl, rfl, rfl, rfl⟩
theorem test_witness_EncodeDecodeRoundTrips_inv : packetE1.Inv := by decide
theorem test_witness_EncodeDecodeRoundTrips_back :
    ∃ t, exec .decode (withFrame frameE1 State.reset) = .next t ∧ t.err = 0
      ∧ (withFrame frameE1 State.reset).pktlen.toNat = frameE1.length ∧ Memory.Holds (withFrame frameE1 State.reset).pkt frameE1 :=
  ⟨_, rfl, rfl, by decide, holds_writeAll _ _⟩
theorem test_witness_SingleBitCorruptionIsRejected :
    validFrame frameE1 = true ∧ (withFrame frameE1 State.reset).pktlen.toNat = frameE1.length
      ∧ Memory.Holds (withFrame frameE1 State.reset).pkt frameE1 ∧ 8 < frameE1.length ∧ 3 < frameE1.length ∧ 7 < 8 := by decide
theorem test_witness_StreamedVerifyAgreesWithValidate :
    wfFrame frameE1 = true
      ∧ (withFrame frameE1 (host (ckStream (zck frameE1) ++ [wr .expect (ckf frameE1), command .ckvfy]))).pktlen.toNat = frameE1.length
      ∧ Memory.Holds (withFrame frameE1 (host (ckStream (zck frameE1) ++ [wr .expect (ckf frameE1), command .ckvfy]))).pkt frameE1 := by decide
theorem test_witness_CodecLeavesTheEngineAlone :
    (∃ t, exec .encode packetE1 = .next t) ∧ (∃ t, exec .decode (withFrame frameE1 State.reset) = .next t)
      ∧ ∃ t, exec .validate (withFrame frameE1 State.reset) = .next t := ⟨⟨_, rfl⟩, ⟨_, rfl⟩, ⟨_, rfl⟩⟩
theorem test_witness_UnreadBytesDoNotMatter :
    (packetE1.length.toNat ≤ 1000 ∧ ∀ a, a < packetE1.length.toNat →
        Memory.read [(0, 0x48#8), (1, 0x69#8), (2, 0xFF#8)] a = Memory.read packetE1.pay a)
      ∧ ∀ a, a < (withFrame frameE1 State.reset).pktlen.toNat →
        Memory.read (Memory.write (Memory.writeAll [] 0 frameE1) 9 0xFF#8) a = Memory.read (withFrame frameE1 State.reset).pkt a := by decide
theorem test_witness_UnreadBytesDoNotMatter_fault :
    exec .encode { State.reset with length := 1#16 } = .fault (.unspecifiedByte .pay 0)
      ∧ exec .decode { State.reset with pktlen := 7#16 } = .fault (.unspecifiedByte .pkt 3) := ⟨rfl, rfl⟩
theorem test_witness_CommandsIgnoreTheStatusBits :
    (∃ t, exec .ckvfy { State.reset with err := 6, valid := true, matched := true } = .next t)
      ∧ exec .validate { State.reset with pktlen := 7#16 } = .fault (.unspecifiedByte .pkt 3) := ⟨⟨_, rfl⟩, rfl⟩
theorem test_witness_CommandsAreIdempotent : (withFrame frameE1 State.reset).Inv ∧ ∀ b, Instr.decode ≠ .ckbyte b := by decide
theorem test_witness_StepKeepsTheInvariant :
    (withFrame frameE1 (host [.bufWrite .pay 999 0xFF])).Inv ∧ ∃ t, step (withFrame frameE1 (host [.bufWrite .pay 999 0xFF])) = .next t :=
  ⟨by decide, ⟨_, rfl⟩⟩
theorem test_witness_ErrDescribesTheLatestCommandWord :
    (Event.regWrite 10 0).commandWord? = none ∧ (Event.regWrite 0 0xFFFF).commandWord? ≠ none ∧ Event.regWrite 0 0xFFFF ≠ .reset := by decide
theorem test_witness_StatusBitsHaveOneWriter :
    (Event.regWrite 0 0x1200).command? ≠ some .ckvfy ∧ (Event.regWrite 0 0x0400).command? ≠ some .validate
      ∧ (Event.regWrite 0 0x0300).command? ≠ some .ckinit ∧ (∀ b, (Event.regWrite 0 0x0300).command? ≠ some (.ckbyte b))
      ∧ ∃ t, step (host [.regWrite 0 0x0300]) = .next t := ⟨by decide, by decide, by decide, by decide, ⟨_, rfl⟩⟩
theorem test_witness_RegistersChangeOnlyByTheirWriters :
    (Event.regWrite 10 0xFFFF).command? ≠ some .decode ∧ (∀ v, Event.regWrite 10 0xFFFF ≠ .regWrite 2 v)
      ∧ (∀ a v, Event.regWrite 10 0xFFFF ≠ .bufWrite .pay a v) ∧ Event.regWrite 10 0xFFFF ≠ .reset
      ∧ ∃ t, step (host [.regWrite 10 0xFFFF]) = .next t :=
  ⟨by decide, by simp, by simp, by simp, ⟨_, rfl⟩⟩

end Sys2Proof.Tests
end

/-! SUPPORT. The checksum engine as arithmetic: the fold in closed form and what absorbing one byte does to the accumulator
(41_checksum_engine.md R122, R124, R126). -/

namespace Sys2Proof.Machine

/-- R124: zero stays zero, and every other value goes to its residue modulo 65535 in the range 1 to 65535. -/
theorem fold_eq (x : Nat) : fold x = if x = 0 then 0 else (x - 1) % 65535 + 1 := by
  refine fold_induction (P := fun x y => y = if x = 0 then 0 else (x - 1) % 65535 + 1) ?_ ?_ x
  · intro x h
    split_ifs <;> omega
  · intro x y hx hy
    rw [if_neg (by omega)] at hy ⊢
    omega

/-- A summand may be folded before the addition. -/
theorem fold_fold_add (x y : Nat) : fold (fold x + y) = fold (x + y) := by
  rw [fold_eq (fold x + y), fold_eq (x + y), fold_eq x]
  split_ifs <;> omega

theorem ocAdd_toNat_eq_fold (a b : Word) : (ocAdd a b).toNat = fold (a.toNat + b.toNat) := by
  rw [ocAdd_toNat, fold_eq]
  split_ifs <;> omega

theorem toNat_ofNat_fold (x : Nat) : (BitVec.ofNat 16 (fold x)).toNat = fold x := by
  have := fold_le x
  rw [BitVec.toNat_ofNat, Nat.mod_eq_of_lt (by omega)]

/-- The accumulator of CKBYTE (R126, R129): from the folded sum of `B` to that of `B` and one byte more. -/
theorem ocAdd_ckbyteAddend {a : Word} {B : List Byte} (ha : a.toNat = fold (wsum B)) (b : Byte) :
    (ocAdd a (ckbyteAddend (decide (B.length % 2 = 1)) b)).toNat = fold (wsum (B ++ [b])) := by
  rw [ocAdd_toNat_eq_fold, ha, fold_fold_add, ckbyteAddend_toNat, wsum_snoc]
  simp only [decide_eq_true_eq]

/-- The parity bit of CKBYTE (R126): one byte more is the other parity. -/
theorem not_odd_length (B : List Byte) (b : Byte) :
    (!decide (B.length % 2 = 1)) = decide ((B ++ [b]).length % 2 = 1) := by
  rw [← decide_not, decide_eq_decide, List.length_append, List.length_singleton]
  omega

end Sys2Proof.Machine

/-! SUPPORT. A command line of a script runs its command (30_encoding.md R92, R104), and what each engine command answers
(41_checksum_engine.md R125 to R128). -/

namespace Sys2Proof

theorem encode_ckbyte (b : Byte) : encode (.ckbyte b) = Machine.be16 0x02#8 b := by
  apply BitVec.eq_of_toNat_eq
  rw [Machine.be16_toNat, encode, BitVec.toNat_add, BitVec.toNat_setWidth]
  simp only [BitVec.toNat_ofNat]
  omega

theorem decode_encode (i : Instr) : decode (encode i) = .ok i := by
  rw [decode_ok_iff]
  cases i with
  | ckbyte b => simp [encode_ckbyte]
  | ckinit | ckfin | ckvfy | encode | decode | validate => simp [encode]

end Sys2Proof

namespace Sys2Proof.Machine

theorem step_command {s : State} {i : Instr} {rest : List Event} (h : s.pending = command i :: rest) :
    step s = exec i { s with pending := rest } := by
  rw [step_wr h]
  exact runCommand_of_ok _ (decode_encode i)

theorem exec_ckinit (s : State) : exec .ckinit s = .next { s with ckacc := 0x0000#16, odd := false, err := 0 } := rfl

theorem exec_ckbyte (b : Byte) (s : State) :
    exec (.ckbyte b) s = .next { s with ckacc := ocAdd s.ckacc (ckbyteAddend s.odd b), odd := !s.odd, err := 0 } := rfl

theorem exec_ckfin (s : State) : exec .ckfin s = .next { s with cksum := not16 s.ckacc, err := 0 } := rfl

theorem exec_ckvfy (s : State) :
    exec .ckvfy s = .next { s with matched := decide (not16 s.ckacc = s.expect), err := 0 } := rfl

/-! SUPPORT. CKSTREAM (30_encoding.md R105): the state it leaves, by induction on the bytes still to absorb. -/

/-- The state `s` after a CKINIT and one CKBYTE for each byte of `B`, with `rest` still to come. -/
def State.afterStream (s : State) (B : List Byte) (rest : List Event) : State :=
  { s with pending := rest, ckacc := BitVec.ofNat 16 (fold (wsum B)), odd := decide (B.length % 2 = 1), err := 0 }

theorem step_ckinit {s : State} {rest : List Event} (h : s.pending = command .ckinit :: rest) :
    step s = .next (s.afterStream [] rest) := by
  rw [step_command h]
  exact exec_ckinit _

theorem step_ckbyte_afterStream (s : State) (B : List Byte) (b : Byte) (rest : List Event) :
    step (s.afterStream B (command (.ckbyte b) :: rest)) = .next (s.afterStream (B ++ [b]) rest) := by
  have hacc : ocAdd (BitVec.ofNat 16 (fold (wsum B))) (ckbyteAddend (decide (B.length % 2 = 1)) b)
      = BitVec.ofNat 16 (fold (wsum (B ++ [b]))) :=
    BitVec.eq_of_toNat_eq ((ocAdd_ckbyteAddend (toNat_ofNat_fold _) b).trans (toNat_ofNat_fold _).symm)
  rw [step_command (i := .ckbyte b) rfl, exec_ckbyte]
  simp only [State.afterStream, hacc, not_odd_length B b]

theorem run_ckbytes_afterStream (s : State) (B D : List Byte) (rest : List Event) :
    Host.Core.run core D.length (s.afterStream B ((D.map fun b => command (.ckbyte b)) ++ rest))
      = .next (s.afterStream (B ++ D) rest) := by
  induction D generalizing B with
  | nil => rw [List.append_nil]; rfl
  | cons b D ih =>
    rw [List.map_cons, List.cons_append, List.length_cons, run_succ_of_next (step_ckbyte_afterStream s B b _), ih,
      List.append_cons B b D]

theorem run_ckStream {s : State} {B : List Byte} {rest : List Event} (h : s.pending = ckStream B ++ rest) :
    Host.Core.run core (B.length + 1) s = .next (s.afterStream B rest) := by
  rw [run_succ_of_next (step_ckinit h)]
  exact run_ckbytes_afterStream s [] B rest

/-- Settles O28: CKSTREAM leaves the stream state of `B`, and one or two more steps read the result off it. -/
theorem calculateAndVerifyScripts : Obligations.CalculateAndVerifyScripts := by
  refine ⟨fun s B rest h => ?_, fun s B v rest h => ?_⟩
  · have hfin : step (s.afterStream B (command .ckfin :: rest))
        = .next { s.afterStream B rest with cksum := cksum B } := by
      rw [step_command rfl, exec_ckfin]
      rfl
    exact (run_add_of_next (k := 1) (run_ckStream h)).trans (run_succ_of_next hfin)
  · have hexpect : step (s.afterStream B (wr .expect v :: command .ckvfy :: rest))
        = .next { s.afterStream B (command .ckvfy :: rest) with expect := v } := by
      rw [step_wr rfl]
      rfl
    have hvfy : step { s.afterStream B (command .ckvfy :: rest) with expect := v }
        = .next { s.afterStream B rest with expect := v, matched := decide (cksum B = v) } := by
      rw [step_command rfl, exec_ckvfy]
      rfl
    exact (run_add_of_next (k := 2) (run_ckStream h)).trans
      ((run_succ_of_next hexpect).trans (run_succ_of_next hvfy))

end Sys2Proof.Machine

/-! SUPPORT. The invariant (10_state.md R45, 20_memory.md R60): the reset state has it, and each operation the commands and accesses
share keeps it. -/

namespace Sys2Proof.Machine

/-- Settles O47: `ERR` is 0 and both buffers list nothing. -/
theorem resetSatisfiesTheInvariant : Obligations.ResetSatisfiesTheInvariant :=
  ⟨by decide, rfl, rfl, rfl, rfl⟩

theorem inv_report {s : State} (r : Reason) (hs : s.Inv) : (report r s).Inv :=
  ⟨code_le r, hs.2⟩

theorem inv_setBuffer_write {s : State} {sp : BufSpace} {a : Nat} (v : Byte) (ha : a < sp.capacity) (hs : s.Inv) :
    (s.setBuffer sp (Memory.write (s.buffer sp) a v)).Inv := by
  obtain ⟨herr, hpay, hpayIn, hpkt, hpktIn⟩ := hs
  cases sp with
  | pay => exact ⟨herr, wf_write a v hpay, within_write v ha hpayIn, hpkt, hpktIn⟩
  | pkt => exact ⟨herr, hpay, hpayIn, wf_write a v hpkt, within_write v ha hpktIn⟩

/-- A frame that fits `PKT` may be stored (42_packet_codec.md R152). -/
theorem inv_storeFrame {s : State} {F : List Byte} (hF : F.length ≤ Config.pktCap) (hs : s.Inv) : (storeFrame F s).Inv := by
  obtain ⟨herr, hpay, hpayIn, hpkt, hpktIn⟩ := hs
  exact ⟨herr, hpay, hpayIn, wf_writeAll 0 F hpkt, within_writeAll (by omega) hpktIn⟩

/-- The payload of a frame that fits `PKT` fits `PAY` (42_packet_codec.md R156, R158). -/
theorem inv_loadRecord {s : State} {F : List Byte} (hF : F.length ≤ Config.pktCap) (hs : s.Inv) : (loadRecord F s).Inv := by
  obtain ⟨herr, hpay, hpayIn, hpkt, hpktIn⟩ := hs
  have hfit : 0 + (payl F).length ≤ Config.payCap := by
    simp only [length_payl, pktCap_eq, payCap_eq] at hF ⊢
    omega
  exact ⟨herr, wf_writeAll 0 (payl F) hpay, within_writeAll hfit hpayIn, hpkt, hpktIn⟩

theorem exec_inv {i : Instr} {s t : State} (hs : s.Inv) (h : exec i s = .next t) : t.Inv := by
  cases i with
  | ckinit | ckbyte b | ckfin | ckvfy =>
    cases h
    exact inv_report .noFailure hs
  | encode =>
    rcases execEncode_next h with ⟨_, rfl⟩ | ⟨hlen, P, hP, _, rfl⟩
    · exact inv_report _ hs
    · have hfit : (enc s.seq s.ack s.flags P).length ≤ Config.pktCap := by
        simp only [length_enc, pktCap_eq]
        omega
      exact inv_report _ (inv_storeFrame hfit hs)
  | decode =>
    rcases execDecode_next h with ⟨r, _, rfl⟩ | ⟨hcheck, F, hF, _, rfl⟩
    · exact inv_report r hs
    · obtain ⟨_, hlen, _⟩ := frameCheck_none hcheck
      exact inv_report _ (inv_loadRecord (hF.trans_le hlen) hs)
  | validate =>
    rcases execValidate_next h with ⟨r, _, hv⟩ | ⟨_, F, _, _, hv⟩
    · cases hv
      exact inv_report r hs
    · cases hv
      exact inv_report _ hs

theorem perform_inv {e : Event} {s t : State} (hs : s.Inv) (h : perform e s = .next t) : t.Inv := by
  rcases perform_next h with
    ⟨r, -, rfl⟩ | ⟨v, -, -, h⟩ | ⟨r, v, hr, -, -, h⟩ | ⟨sp, a, b, -, -, -, rfl⟩ | ⟨sp, a, v, ha, -, -, rfl⟩ | ⟨-, rfl⟩
  · exact hs
  · rcases runCommand_next h with ⟨i, -, h⟩ | ⟨_, -, rfl⟩
    · exact exec_inv hs h
    · exact inv_report _ hs
  · rcases writeReg_next hr h with ⟨-, rfl⟩ | ⟨-, rfl⟩ | ⟨-, rfl⟩ | ⟨-, rfl⟩ | ⟨-, rfl⟩ | ⟨-, rfl⟩ | ⟨-, rfl⟩ <;> exact hs
  · exact hs
  · exact inv_setBuffer_write _ ha hs
  · exact resetSatisfiesTheInvariant

/-- Settles O46: an event keeps the invariant whatever is pending, and the idle step changes nothing. -/
theorem stepKeepsTheInvariant : Obligations.StepKeepsTheInvariant := by
  intro s t hs h
  rcases step_next h with ⟨-, rfl⟩ | ⟨e, rest, -, h⟩
  · exact hs
  · exact perform_inv (s := { s with pending := rest }) hs h

end Sys2Proof.Machine

/-! SUPPORT. What a command and what any other access leave unchanged, register by register (10_state.md R28 to R40). -/

namespace Sys2Proof.Machine

/-- From `s` to `t` each register, flag and buffer is unchanged unless `i` is a command that writes it. -/
structure CommandFrame (i : Instr) (s t : State) : Prop where
  valid : i ≠ .validate → t.valid = s.valid
  matched : i ≠ .ckvfy → t.matched = s.matched
  odd : i ≠ .ckinit → (∀ b, i ≠ .ckbyte b) → t.odd = s.odd
  seq : i ≠ .decode → t.seq = s.seq
  ack : i ≠ .decode → t.ack = s.ack
  flags : i ≠ .decode → t.flags = s.flags
  length : i ≠ .decode → t.length = s.length
  checksum : i ≠ .encode → i ≠ .decode → t.checksum = s.checksum
  pktlen : i ≠ .encode → t.pktlen = s.pktlen
  ckacc : i ≠ .ckinit → (∀ b, i ≠ .ckbyte b) → t.ckacc = s.ckacc
  cksum : i ≠ .ckfin → t.cksum = s.cksum
  expect : t.expect = s.expect
  pay : i ≠ .decode → t.pay = s.pay
  pkt : i ≠ .encode → t.pkt = s.pkt

/-- From `s` to `t` each register, flag and buffer is unchanged unless `e` is a host write to it. -/
structure AccessFrame (e : Event) (s t : State) : Prop where
  valid : t.valid = s.valid
  matched : t.matched = s.matched
  odd : t.odd = s.odd
  seq : (∀ v, e ≠ .regWrite 2 v) → t.seq = s.seq
  ack : (∀ v, e ≠ .regWrite 3 v) → t.ack = s.ack
  flags : (∀ v, e ≠ .regWrite 4 v) → t.flags = s.flags
  length : (∀ v, e ≠ .regWrite 5 v) → t.length = s.length
  checksum : t.checksum = s.checksum
  pktlen : (∀ v, e ≠ .regWrite 7 v) → t.pktlen = s.pktlen
  ckacc : t.ckacc = s.ckacc
  cksum : t.cksum = s.cksum
  expect : (∀ v, e ≠ .regWrite 10 v) → t.expect = s.expect
  pay : (∀ a v, e ≠ .bufWrite .pay a v) → t.pay = s.pay
  pkt : (∀ a v, e ≠ .bufWrite .pkt a v) → t.pkt = s.pkt

/-- A reason code on top of a change, or alone, is a change of `ERR` only. -/
theorem CommandFrame.report {i : Instr} {s t : State} (h : CommandFrame i s t) (r : Reason) :
    CommandFrame i s (report r t) :=
  { h with }

theorem CommandFrame.refl (i : Instr) (s : State) : CommandFrame i s s := by
  constructor <;> intros <;> rfl

theorem exec_frame {i : Instr} {s t : State} (h : exec i s = .next t) : CommandFrame i s t := by
  cases i with
  | ckinit | ckbyte b | ckfin | ckvfy =>
    cases h
    constructor <;> simp
  | encode =>
    rcases execEncode_next h with ⟨_, rfl⟩ | ⟨_, P, _, _, rfl⟩
    · exact (CommandFrame.refl _ s).report _
    · constructor <;> simp
  | decode =>
    rcases execDecode_next h with ⟨r, _, rfl⟩ | ⟨_, F, _, _, rfl⟩
    · exact (CommandFrame.refl _ s).report r
    · constructor <;> simp
  | validate =>
    have hv : ∃ r, verdict r s = .next t := by
      rcases execValidate_next h with ⟨r, _, hv⟩ | ⟨_, F, _, _, hv⟩ <;> exact ⟨_, hv⟩
    obtain ⟨r, hv⟩ := hv
    cases hv
    constructor <;> simp

theorem AccessFrame.refl (e : Event) (s : State) : AccessFrame e s s := by
  constructor <;> intros <;> rfl

theorem writeReg_frame {r : Reg} {n : Nat} {v : Word} {s t : State} (hr : r ≠ .cmd) (h : writeReg r v s = .next t) :
    AccessFrame (.regWrite r.number n) s t := by
  rcases writeReg_next hr h with ⟨-, rfl⟩ | ⟨rfl, rfl⟩ | ⟨rfl, rfl⟩ | ⟨rfl, rfl⟩ | ⟨rfl, rfl⟩ | ⟨rfl, rfl⟩ | ⟨rfl, rfl⟩
  · exact AccessFrame.refl _ _
  all_goals constructor <;> simp [Reg.number]

/-- An event but `RESET` starts a command, which is all it does, or changes at most what the host writes with it. -/
theorem perform_frame {e : Event} {s t : State} (he : e ≠ .reset) (h : perform e s = .next t) :
    (∃ i, e.command? = some i ∧ CommandFrame i s t) ∨ AccessFrame e s t := by
  rcases perform_next h with
    ⟨r, -, rfl⟩ | ⟨v, hv, rfl, hrun⟩ | ⟨r, v, hr, -, rfl, hwrite⟩ | ⟨sp, a, b, -, -, -, rfl⟩ | ⟨sp, a, v, -, -, rfl, rfl⟩
      | ⟨hreset, -⟩
  · exact .inr { AccessFrame.refl e s with }
  · rcases runCommand_next hrun with ⟨i, hi, hexec⟩ | ⟨_, -, rfl⟩
    · exact .inl ⟨i, by rw [command?_regWrite0 hv, hi], exec_frame hexec⟩
    · exact .inr { AccessFrame.refl _ s with }
  · exact .inr (writeReg_frame hr hwrite)
  · exact .inr { AccessFrame.refl e s with }
  · right
    cases sp <;> constructor <;> simp
  · exact absurd hreset he

/-- The same for a step; taking the event from `pending` changes no register. -/
theorem step_frame {s t : State} {e : Event} {rest : List Event} (hp : s.pending = e :: rest) (he : e ≠ .reset)
    (h : step s = .next t) : (∃ i, e.command? = some i ∧ CommandFrame i s t) ∨ AccessFrame e s t := by
  rw [step_of_pending hp] at h
  rcases perform_frame he h with ⟨i, hi, hf⟩ | hf
  · exact .inl ⟨i, hi, { hf with }⟩
  · exact .inr { hf with }

theorem step_pending {s t : State} {e : Event} {rest : List Event} (hp : s.pending = e :: rest)
    (h : step s = .next t) : t.pending = rest := by
  rw [step_of_pending hp] at h
  exact perform_pending h

/-- Settles O42: none of the three is a command that writes a register of the engine. -/
theorem codecLeavesTheEngineAlone : Obligations.CodecLeavesTheEngineAlone := by
  rintro s t i hi h
  have hf := exec_frame h
  rcases hi with rfl | rfl | rfl <;>
    exact ⟨hf.ckacc (by simp) (by simp), hf.odd (by simp) (by simp), hf.cksum (by simp), hf.matched (by simp), hf.expect⟩

/-- Settles O49, from the frame of the command the access starts or of the access itself. -/
theorem statusBitsHaveOneWriter : Obligations.StatusBitsHaveOneWriter := by
  intro s t e rest hp he h
  rcases step_frame hp he h with ⟨i, hi, hf⟩ | hf
  · simp only [hi, ne_eq, Option.some.injEq]
    exact ⟨hf.valid, hf.matched, hf.odd⟩
  · exact ⟨fun _ => hf.valid, fun _ => hf.matched, fun _ _ => hf.odd⟩

/-- Settles O50, from the frame of the command the access starts or of the access itself. -/
theorem registersChangeOnlyByTheirWriters : Obligations.RegistersChangeOnlyByTheirWriters := by
  intro s t e rest hp he h
  have hrest := step_pending hp h
  rcases step_frame hp he h with ⟨i, hi, hf⟩ | hf
  · simp only [hi, ne_eq, Option.some.injEq]
    exact ⟨fun hd _ => hf.seq hd, fun hd _ => hf.ack hd, fun hd _ => hf.flags hd, fun hd _ => hf.length hd, hf.checksum,
      fun hc _ => hf.pktlen hc, hf.ckacc, hf.cksum, fun _ => hf.expect, fun hd _ => hf.pay hd, fun hc _ => hf.pkt hc, hrest⟩
  · exact ⟨fun _ => hf.seq, fun _ => hf.ack, fun _ => hf.flags, fun _ => hf.length, fun _ _ => hf.checksum,
      fun _ => hf.pktlen, fun _ _ => hf.ckacc, fun _ => hf.cksum, hf.expect, fun _ => hf.pay, fun _ => hf.pkt, hrest⟩

end Sys2Proof.Machine

/-! SUPPORT. What a command makes of `ERR`, `VALID` and `MATCH` (10_state.md R28, R43): it reads none of them, and it always writes
`ERR`. -/

namespace Sys2Proof.Machine

/-- The state with other values of the three status bits (R43). -/
def State.withStatus (e : BitVec 4) (v m : Bool) (s : State) : State := { s with err := e, valid := v, matched := m }

/-- The state `t` in which command `i` ended, with `VALID` and `MATCH` as given unless `i` writes them. -/
def State.keepStatus (i : Instr) (v m : Bool) (t : State) : State :=
  { t with valid := if i = .validate then t.valid else v, matched := if i = .ckvfy then t.matched else m }

/-- The outcome with its next state, if it has one, changed by `f`. -/
def mapNext (f : State → State) : Host.Outcome State Fault Refusal → Host.Outcome State Fault Refusal
  | .next s => .next (f s)
  | .fault r => .fault r
  | .refused r => .refused r

theorem frameCheck_withStatus (e : BitVec 4) (v m : Bool) (s : State) : frameCheck (s.withStatus e v m) = frameCheck s := rfl

theorem exec_withStatus (i : Instr) (s : State) (e : BitVec 4) (v m : Bool) :
    exec i (s.withStatus e v m) = mapNext (State.keepStatus i v m) (exec i s) := by
  cases i with
  | ckinit | ckbyte b | ckfin | ckvfy => rfl
  | encode =>
    simp only [exec, execEncode]
    rw [apply_ite (mapNext _)]
    refine if_congr Iff.rfl rfl ?_
    simp only [State.withStatus]
    cases readBytes .pay s.pay 0 s.length.toNat <;> rfl
  | decode =>
    simp only [exec, execDecode, frameCheck_withStatus]
    rcases frameCheck s with f | _ | r
    · rfl
    · simp only [State.withStatus, frameLen]
      cases readBytes .pkt s.pkt 0 s.pktlen.toNat <;> rfl
    · rfl
  | validate =>
    simp only [exec, execValidate, frameCheck_withStatus]
    rcases frameCheck s with f | _ | r
    · rfl
    · simp only [State.withStatus, frameLen]
      rcases readBytes .pkt s.pkt 0 s.pktlen.toNat with f | F
      · rfl
      · by_cases hck : cksum (zck F) = ckf F <;> simp only [hck, if_true, if_false] <;> rfl
    · rfl

/-- Settles O44: a command reads none of the three bits, so their values pass through it. -/
theorem commandsIgnoreTheStatusBits : Obligations.CommandsIgnoreTheStatusBits := by
  intro i s e v m
  have hstatus := exec_withStatus i s e v m
  refine ⟨fun f hf => ?_, fun t ht => ?_⟩
  · rw [hf] at hstatus
    exact hstatus
  · rw [ht] at hstatus
    exact hstatus

/-- Every command overwrites `ERR`, so nothing of its old value is left. -/
theorem exec_with_err (i : Instr) (s : State) (x : BitVec 4) : exec i { s with err := x } = exec i s := by
  cases i <;> rfl

theorem runCommand_with_err (cw : Word) (s : State) (x : BitVec 4) : runCommand cw { s with err := x } = runCommand cw s := by
  cases h : decode cw with
  | ok i => rw [runCommand_of_ok _ h, runCommand_of_ok _ h, exec_with_err]
  | error d =>
    rw [runCommand_of_error _ h, runCommand_of_error _ h]
    rfl

/-- A command ends with a reason code in `ERR` (R28). -/
theorem exec_err_code {i : Instr} {s t : State} (h : exec i s = .next t) : ∃ r : Reason, t.err = r.code := by
  cases i with
  | ckinit | ckbyte b | ckfin | ckvfy =>
    cases h
    exact ⟨.noFailure, rfl⟩
  | encode => rcases execEncode_next h with ⟨_, rfl⟩ | ⟨_, P, _, _, rfl⟩ <;> exact ⟨_, report_err _ _⟩
  | decode => rcases execDecode_next h with ⟨r, _, rfl⟩ | ⟨_, F, _, _, rfl⟩ <;> exact ⟨_, report_err _ _⟩
  | validate => rcases execValidate_next h with ⟨r, _, hv⟩ | ⟨_, F, _, _, hv⟩ <;> (cases hv; exact ⟨_, rfl⟩)

theorem runCommand_err_le {cw : Word} {s t : State} (h : runCommand cw s = .next t) : t.err.toNat ≤ 6 := by
  rcases runCommand_next h with ⟨i, -, h⟩ | ⟨_, -, rfl⟩
  · obtain ⟨r, hr⟩ := exec_err_code h
    exact hr ▸ code_le r
  · exact code_le _

theorem commandWord?_regWrite0 {v : Nat} (hv : v ≤ 0xFFFF) : (Event.regWrite 0 v).commandWord? = some (BitVec.ofNat 16 v) :=
  if_pos ⟨rfl, hv⟩

/-- An event that is no write of a word to `CMD`, and no reset, leaves `ERR` alone. -/
theorem perform_err_of_no_word {e : Event} {s t : State} (he : e ≠ .reset) (hw : e.commandWord? = none)
    (h : perform e s = .next t) : t.err = s.err := by
  rcases perform_next h with
    ⟨r, -, rfl⟩ | ⟨v, hv, rfl, -⟩ | ⟨r, v, hr, -, -, h⟩ | ⟨sp, a, b, -, -, -, rfl⟩ | ⟨sp, a, v, -, -, -, rfl⟩ | ⟨hreset, -⟩
  · rfl
  · rw [commandWord?_regWrite0 hv] at hw
    cases hw
  · rcases writeReg_next hr h with ⟨-, rfl⟩ | ⟨-, rfl⟩ | ⟨-, rfl⟩ | ⟨-, rfl⟩ | ⟨-, rfl⟩ | ⟨-, rfl⟩ | ⟨-, rfl⟩ <;> rfl
  · rfl
  · cases sp <;> rfl
  · exact absurd hreset he

/-- An event that carries a command word runs it. -/
theorem perform_of_commandWord {e : Event} {cw : Word} (hw : e.commandWord? = some cw) (s : State) :
    perform e s = runCommand cw s := by
  cases e with
  | regWrite n v =>
    simp only [Event.commandWord?, Option.ite_none_right_eq_some, Option.some.injEq] at hw
    obtain ⟨⟨rfl, hv⟩, rfl⟩ := hw
    simp only [perform, ofNumber?_number, if_pos hv, writeReg]
  | regRead | bufRead | bufWrite | reset => cases hw

/-- Settles O48: only a command word touches `ERR`, and its reason code replaces what was there. -/
theorem errDescribesTheLatestCommandWord : Obligations.ErrDescribesTheLatestCommandWord := by
  intro s e rest hp he
  refine ⟨fun hw t h => ?_, fun hw => ?_⟩
  · rw [step_of_pending hp] at h
    exact perform_err_of_no_word (s := { s with pending := rest }) he hw h
  · obtain ⟨cw, hcw⟩ := Option.ne_none_iff_exists'.mp hw
    have hstep : step s = runCommand cw { s with pending := rest } := by
      rw [step_of_pending hp, perform_of_commandWord hcw]
    refine ⟨fun x => ?_, fun t h => ?_⟩
    · rw [hstep, step_of_pending (s := { s with err := x }) hp, perform_of_commandWord hcw]
      exact runCommand_with_err cw { s with pending := rest } x
    · exact runCommand_err_le (hstep ▸ h)

end Sys2Proof.Machine

/-! SUPPORT. The step on a legal command word (10_state.md R21, 30_encoding.md R90), and the reset values (10_state.md R42). -/

namespace Sys2Proof.Machine

theorem step_regWrite_cmd {s : State} {v : Nat} {rest : List Event} {i : Instr} (hv : v ≤ 0xFFFF)
    (hp : s.pending = .regWrite 0 v :: rest) (hi : decode (BitVec.ofNat 16 v) = .ok i) :
    step s = exec i { s with pending := rest } := by
  rw [step_regWrite (r := .cmd) hp hv]
  exact runCommand_of_ok _ hi

theorem decodeTableWord_eq_some {nbits w : Nat} {i : Instr} (h : decodeTableWord nbits w = some i) :
    decode (BitVec.ofNat 16 (w % 2 ^ nbits)) = .ok i := by
  unfold decodeTableWord at h
  split_ifs at h
  split at h
  · next hi =>
    cases h
    exact hi
  · cases h

/-- Settles O5: the word `withFetchWord` puts at the head is the one `decodeTableWord` read, kept to its 16 bits. -/
theorem stepRunsTheDecodedCommand : Obligations.StepRunsTheDecodedCommand := by
  refine ⟨fun s v rest i hv hp hi => step_regWrite_cmd hv hp hi, fun s nbits w i h => ?_⟩
  have hword : BitVec.ofNat 16 (w % 2 ^ nbits % 65536) = BitVec.ofNat 16 (w % 2 ^ nbits) :=
    BitVec.eq_of_toNat_eq (by simp)
  have hdec : decode (BitVec.ofNat 16 (w % 2 ^ nbits % 65536)) = .ok i := by
    rw [hword, decodeTableWord_eq_some h]
  exact step_regWrite_cmd (s := s.withFetchWord nbits w) (by omega) rfl hdec

/-- Settles O15: each register of the reset state is 0, and a buffer that lists nothing answers no byte. -/
theorem resetValuesAreZeroAndBuffersUnspecified : Obligations.ResetValuesAreZeroAndBuffersUnspecified :=
  ⟨rfl, rfl, rfl, rfl, rfl, rfl, rfl, rfl, rfl, rfl, fun a => ⟨read_nil a, read_nil a⟩⟩

end Sys2Proof.Machine

/-! SUPPORT. The accesses at the host port (20_memory.md R62 to R66, R73): the idle step, what a read of a register or a buffer byte
returns, what a register write leaves, and a write followed by a read. -/

namespace Sys2Proof.Machine

theorem step_of_pending_nil {s : State} (h : s.pending = []) : step s = .next s := by
  unfold step
  rw [h]
  rfl

/-- Settles O6: the idle step answers the state itself. -/
theorem idleStepChangesNothing : Obligations.IdleStepChangesNothing :=
  fun _ h => step_of_pending_nil h

/-! Reading a register. -/

theorem exists_number_eq {n : Nat} (h : n ≤ 10) : ∃ r : Reg, r.number = n := by
  cases hr : Reg.ofNumber? n with
  | none =>
    have := ofNumber?_eq_none.mp hr
    omega
  | some r => exact ⟨r, (ofNumber?_eq_some.mp hr).symm⟩

theorem number_lt (r : Reg) : r.number < 11 := by
  cases r <;> decide

/-- No register shows what is pending or what reads have returned. -/
@[simp] theorem readReg_deliver (v : ReadValue) (s : State) (r : Reg) : readReg (deliver v s) r = readReg s r := by
  cases r <;> rfl

@[simp] theorem readReg_with_pending (s : State) (p : List Event) (r : Reg) :
    readReg { s with pending := p } r = readReg s r := by
  cases r <;> rfl

/-- A byte read as a register keeps its value (10_state.md R23). -/
theorem setWidth_byte_toNat (b : Byte) : (b.setWidth 16).toNat = b.toNat :=
  BitVec.toNat_setWidth_of_le (by decide)

/-- A read leaves every register as it was, so a second one answers the same word. -/
theorem run_regRead_twice {s : State} {r : Reg} {rest : List Event}
    (h : s.pending = .regRead r.number :: .regRead r.number :: rest) :
    Host.Core.run core 2 s
      = .next { s with pending := rest, returned := s.returned ++ [.word (readReg s r), .word (readReg s r)] } := by
  rw [run_succ_of_next (step_regRead h), run_succ_of_next (step_regRead rfl), run_zero, readReg_deliver,
    readReg_with_pending, List.append_cons]
  rfl

/-- Settles O7: the word is `readReg` of the register that `n` numbers. -/
theorem regReadReturnsTheRegister : Obligations.RegReadReturnsTheRegister := by
  intro s n rest hn
  obtain ⟨r, rfl⟩ := exists_number_eq hn
  refine ⟨readReg s r, fun p hp => step_regRead hp, run_regRead_twice, ?_⟩
  cases r <;> simp [Reg.number, readReg, statusWord_toNat, setWidth_byte_toNat, -BitVec.toNat_setWidth]

/-! Writing a register. -/

theorem lo8_ofNat (v : Nat) : lo8 (BitVec.ofNat 16 v) = BitVec.ofNat 8 (v % 256) := by
  apply BitVec.eq_of_toNat_eq
  rw [lo8_toNat, BitVec.toNat_ofNat, BitVec.toNat_ofNat]
  omega

theorem step_regWrite_cmd_illegal {s : State} {v : Nat} {rest : List Event} (hv : v ≤ 0xFFFF)
    (hp : s.pending = .regWrite 0 v :: rest) (hi : ∀ i, decode (BitVec.ofNat 16 v) ≠ .ok i) :
    step s = .next { s with pending := rest, err := 6 } := by
  rw [step_regWrite (r := .cmd) hp hv]
  cases hd : decode (BitVec.ofNat 16 v) with
  | ok i => exact absurd hd (hi i)
  | error e => exact runCommand_of_error _ hd

/-- Settles O8, one register number after the other. -/
theorem regWriteStoresRunsOrIsIgnored : Obligations.RegWriteStoresRunsOrIsIgnored := by
  intro s n v rest hv hp
  have hstore (r : Reg) (hn : n = r.number) : step s = writeReg r (BitVec.ofNat 16 v) { s with pending := rest } :=
    step_regWrite (hn ▸ hp) hv
  refine ⟨fun hn i hi => step_regWrite_cmd hv (hn ▸ hp) hi, fun hn hi => step_regWrite_cmd_illegal hv (hn ▸ hp) hi,
    ?_, fun hn => ?_, fun hn => ?_, fun hn => ?_, hstore .length, hstore .pktlen, hstore .expect⟩
  · rintro (hn | hn | hn | hn)
    · exact hstore .status hn
    · exact hstore .checksum hn
    · exact hstore .ckacc hn
    · exact hstore .cksum hn
  · rw [hstore .seq hn, ← lo8_ofNat]
    rfl
  · rw [hstore .ack hn, ← lo8_ofNat]
    rfl
  · rw [hstore .flags hn, ← lo8_ofNat]
    rfl

/-! Reading a buffer byte. -/

theorem step_bufRead_of_some {s : State} {sp : BufSpace} {a : Nat} {b : Byte} {rest : List Event} (ha : a < sp.capacity)
    (hp : s.pending = .bufRead sp a :: rest) (hb : Memory.read (s.buffer sp) a = some b) :
    step s = .next (deliver (.byte b) { s with pending := rest }) := by
  rw [step_bufRead hp ha]
  exact hostBufRead_of_some (by rwa [buffer_with_pending])

/-- Settles O9, from the two answers of a host read. -/
theorem bufReadReturnsTheByte : Obligations.BufReadReturnsTheByte := by
  intro s space a rest ha hp
  refine ⟨fun b hb => step_bufRead_of_some ha hp hb, fun hnone => ?_⟩
  rw [step_bufRead hp ha]
  exact hostBufRead_of_none (by rwa [buffer_with_pending])

/-! A write and then a read of the same place (20_memory.md R73). -/

/-- An `RW` register reads as the datum just written, an 8-bit one as its low byte (10_state.md R23). -/
theorem writeReg_readReg {r : Reg} (hr : r.number ∈ [2, 3, 4, 5, 7, 10]) (v : Nat) (s : State) :
    ∃ t, writeReg r (BitVec.ofNat 16 v) s = .next t ∧ t.pending = s.pending ∧ t.returned = s.returned
      ∧ readReg t r = BitVec.ofNat 16 (if r.number ≤ 4 then v % 256 else v) := by
  have hlow : (lo8 (BitVec.ofNat 16 v)).setWidth 16 = BitVec.ofNat 16 (v % 256) := by
    apply BitVec.eq_of_toNat_eq
    rw [setWidth_byte_toNat, lo8_ofNat, BitVec.toNat_ofNat, BitVec.toNat_ofNat]
    omega
  cases r with
  | cmd | status | checksum | ckacc | cksum => simp [Reg.number] at hr
  | seq | ack | flags => exact ⟨_, rfl, rfl, rfl, hlow⟩
  | length | pktlen | expect => exact ⟨_, rfl, rfl, rfl, rfl⟩

theorem setBuffer_pending (s : State) (sp : BufSpace) (m : Memory) : (s.setBuffer sp m).pending = s.pending := by
  cases sp <;> rfl

theorem setBuffer_returned (s : State) (sp : BufSpace) (m : Memory) : (s.setBuffer sp m).returned = s.returned := by
  cases sp <;> rfl

theorem buffer_setBuffer_same (s : State) (sp : BufSpace) (m : Memory) : (s.setBuffer sp m).buffer sp = m := by
  rw [buffer_setBuffer, if_pos rfl]

/-- Settles O13: the first step stores the datum, the second returns what the place holds. -/
theorem readSeesTheLatestWrite : Obligations.ReadSeesTheLatestWrite := by
  refine ⟨fun s space a v rest ha hv hp => ?_, fun s n v rest hn hv hp => ?_⟩
  · have hread := step_bufRead_of_some ha
      (setBuffer_pending { s with pending := .bufRead space a :: rest } space
        (Memory.write (s.buffer space) a (BitVec.ofNat 8 v)))
      (by rw [buffer_setBuffer_same, read_write_same])
    refine ⟨_, (run_succ_of_next (step_bufWrite hp ha hv)).trans (run_succ_of_next hread), ?_, rfl⟩
    rw [deliver_returned, setBuffer_returned]
  · obtain ⟨r, rfl⟩ := exists_number_eq (n := n) (by simp at hn; omega)
    obtain ⟨t, ht, hpend, hret, hval⟩ := writeReg_readReg hn v { s with pending := .regRead r.number :: rest }
    have hread := step_regRead hpend
    refine ⟨_, (run_succ_of_next ((step_regWrite hp hv).trans ht)).trans (run_succ_of_next hread), rfl, ?_⟩
    rw [deliver_returned, hval, hret]

end Sys2Proof.Machine

/-! SUPPORT. A specified byte stays specified (20_memory.md R67): nothing but `RESET` takes a byte out of a buffer. -/

namespace Sys2Proof.Machine

theorem read_write_ne_none {m : Memory} {b : Nat} (a : Nat) (v : Byte) (h : Memory.read m b ≠ none) :
    Memory.read (Memory.write m a v) b ≠ none := by
  rw [read_write]
  split_ifs
  · exact Option.some_ne_none v
  · exact h

theorem read_writeAll_ne_none {m : Memory} {b : Nat} (a : Nat) (vs : List Byte) (h : Memory.read m b ≠ none) :
    Memory.read (Memory.writeAll m a vs) b ≠ none := by
  induction vs generalizing m a with
  | nil => exact h
  | cons v vs ih => exact ih (a + 1) (read_write_ne_none a v h)

/-- Every buffer byte that is specified in `s` is specified in `t`. -/
def State.KeepsSpecified (s t : State) : Prop :=
  ∀ sp a, Memory.read (s.buffer sp) a ≠ none → Memory.read (t.buffer sp) a ≠ none

theorem keepsSpecified_of_buffers {s t : State}
    (hpay : ∀ a, Memory.read s.pay a ≠ none → Memory.read t.pay a ≠ none)
    (hpkt : ∀ a, Memory.read s.pkt a ≠ none → Memory.read t.pkt a ≠ none) : s.KeepsSpecified t
  | .pay => hpay
  | .pkt => hpkt

theorem keepsSpecified_of_eq {s t : State} (hpay : t.pay = s.pay) (hpkt : t.pkt = s.pkt) : s.KeepsSpecified t :=
  keepsSpecified_of_buffers (fun _ h => hpay ▸ h) (fun _ h => hpkt ▸ h)

theorem setBuffer_write_keepsSpecified (s : State) (sp : BufSpace) (a : Nat) (v : Byte) :
    s.KeepsSpecified (s.setBuffer sp (Memory.write (s.buffer sp) a v)) := by
  intro sp' b h
  rw [buffer_setBuffer]
  split_ifs with hsp
  · subst hsp
    exact read_write_ne_none a v h
  · exact h

theorem exec_keepsSpecified {i : Instr} {s t : State} (h : exec i s = .next t) : s.KeepsSpecified t := by
  have hf := exec_frame h
  cases i with
  | ckinit | ckbyte b | ckfin | ckvfy | validate => exact keepsSpecified_of_eq (hf.pay (by simp)) (hf.pkt (by simp))
  | encode =>
    rcases execEncode_next h with ⟨_, rfl⟩ | ⟨_, P, _, _, rfl⟩
    · exact keepsSpecified_of_eq rfl rfl
    · exact keepsSpecified_of_buffers (fun _ h => h) fun _ h => read_writeAll_ne_none 0 _ h
  | decode =>
    rcases execDecode_next h with ⟨r, _, rfl⟩ | ⟨_, F, _, _, rfl⟩
    · exact keepsSpecified_of_eq rfl rfl
    · exact keepsSpecified_of_buffers (fun _ h => read_writeAll_ne_none 0 _ h) fun _ h => h

theorem perform_keepsSpecified {e : Event} {s t : State} (he : e ≠ .reset) (h : perform e s = .next t) :
    s.KeepsSpecified t := by
  rcases perform_next h with
    ⟨r, -, rfl⟩ | ⟨v, -, -, hrun⟩ | ⟨r, v, hr, -, -, hwrite⟩ | ⟨sp, a, b, -, -, -, rfl⟩ | ⟨sp, a, v, -, -, -, rfl⟩
      | ⟨hreset, -⟩
  · exact keepsSpecified_of_eq rfl rfl
  · rcases runCommand_next hrun with ⟨i, -, hexec⟩ | ⟨_, -, rfl⟩
    · exact exec_keepsSpecified hexec
    · exact keepsSpecified_of_eq rfl rfl
  · have hf := writeReg_frame (n := v) hr hwrite
    exact keepsSpecified_of_eq (hf.pay (by simp)) (hf.pkt (by simp))
  · exact keepsSpecified_of_eq rfl rfl
  · exact setBuffer_write_keepsSpecified s sp a _
  · exact absurd hreset he

/-- Settles O10: the write replaces one byte of one buffer, and no step but `RESET` takes a byte away. -/
theorem bufWriteStoresTheByte : Obligations.BufWriteStoresTheByte := by
  refine ⟨fun s space a v rest ha hv hp => ?_, fun s t space a hreset h hspec => ?_⟩
  · refine ⟨_, step_bufWrite hp ha hv, by cases space <;> rfl, ?_, fun b hb => ?_, fun other hother => ?_⟩
    · rw [buffer_setBuffer_same, read_write_same]
    · rw [buffer_setBuffer_same, read_write_of_ne _ _ hb]
    · rw [buffer_setBuffer, if_neg hother, buffer_with_pending]
  · rcases step_next h with ⟨-, rfl⟩ | ⟨e, rest, hp, hperform⟩
    · exact hspec
    · have he : e ≠ .reset := by simpa [hp] using hreset
      exact perform_keepsSpecified he hperform space a (by rwa [buffer_with_pending])

end Sys2Proof.Machine

/-! SUPPORT. Refusals (20_memory.md R68): the port refuses the events outside the spaces, and nothing behind the port refuses. -/

namespace Sys2Proof.Machine

theorem exec_ne_refused (i : Instr) (s : State) (r : Refusal) : exec i s ≠ .refused r := by
  cases i with
  | ckinit | ckbyte b | ckfin | ckvfy => nofun
  | encode =>
    simp only [exec, execEncode]
    split_ifs
    · nofun
    · split <;> nofun
  | decode =>
    simp only [exec, execDecode]
    split
    · nofun
    · nofun
    · split <;> nofun
  | validate =>
    simp only [exec, execValidate]
    split
    · nofun
    · nofun
    · split
      · nofun
      · split_ifs <;> nofun

theorem runCommand_ne_refused (cw : Word) (s : State) (r : Refusal) : runCommand cw s ≠ .refused r := by
  cases h : decode cw with
  | ok i =>
    rw [runCommand_of_ok s h]
    exact exec_ne_refused i s r
  | error e =>
    rw [runCommand_of_error s h]
    nofun

theorem writeReg_ne_refused (q : Reg) (v : Word) (s : State) (r : Refusal) : writeReg q v s ≠ .refused r := by
  cases q with
  | cmd => exact runCommand_ne_refused v s r
  | status | seq | ack | flags | length | checksum | pktlen | ckacc | cksum | expect => nofun

theorem hostBufRead_ne_refused (sp : BufSpace) (a : Nat) (s : State) (r : Refusal) : hostBufRead sp a s ≠ .refused r := by
  cases h : Memory.read (s.buffer sp) a with
  | none =>
    rw [hostBufRead_of_none h]
    nofun
  | some b =>
    rw [hostBufRead_of_some h]
    nofun

/-! Which events are not well formed, one lemma per kind. -/

theorem wf_regRead_eq_false {n : Nat} : (Event.regRead n).wf = false ↔ 10 < n :=
  decide_eq_false_iff_not.trans Nat.not_lt

theorem wf_regWrite_eq_false {n v : Nat} : (Event.regWrite n v).wf = false ↔ 10 < n ∨ ¬ v ≤ 0xFFFF :=
  Bool.and_eq_false_iff.trans (or_congr wf_regRead_eq_false decide_eq_false_iff_not)

theorem wf_bufRead_eq_false {sp : BufSpace} {a : Nat} : (Event.bufRead sp a).wf = false ↔ ¬ a < sp.capacity :=
  decide_eq_false_iff_not

theorem wf_bufWrite_eq_false {sp : BufSpace} {a v : Nat} :
    (Event.bufWrite sp a v).wf = false ↔ ¬ a < sp.capacity ∨ ¬ v ≤ 0xFF :=
  Bool.and_eq_false_iff.trans (or_congr decide_eq_false_iff_not decide_eq_false_iff_not)

/-- The port refuses exactly the events that are not well formed. -/
theorem perform_refused_iff (e : Event) (s : State) : (∃ r, perform e s = .refused r) ↔ e.wf = false := by
  cases e with
  | regRead n =>
    rw [wf_regRead_eq_false]
    cases hr : Reg.ofNumber? n with
    | none => simp [perform, hr, Nat.lt_of_succ_le (ofNumber?_eq_none.mp hr)]
    | some q =>
      obtain rfl := ofNumber?_eq_some.mp hr
      simp [perform, Nat.le_of_lt_succ (number_lt q)]
  | regWrite n v =>
    rw [wf_regWrite_eq_false]
    cases hr : Reg.ofNumber? n with
    | none => simp [perform, hr, Nat.lt_of_succ_le (ofNumber?_eq_none.mp hr)]
    | some q =>
      obtain rfl := ofNumber?_eq_some.mp hr
      have hq : ¬ 10 < q.number := Nat.not_lt.mpr (Nat.le_of_lt_succ (number_lt q))
      by_cases hv : v ≤ 0xFFFF <;> simp [perform, hv, hq, writeReg_ne_refused]
  | bufRead sp a =>
    rw [wf_bufRead_eq_false]
    by_cases ha : a < sp.capacity <;> simp [perform, ha, hostBufRead_ne_refused]
  | bufWrite sp a v =>
    rw [wf_bufWrite_eq_false]
    by_cases ha : a < sp.capacity <;> by_cases hv : v ≤ 0xFF <;> simp [perform, ha, hv]
  | reset => simp [perform, Event.wf]

/-- Settles O11: the port refuses what is not well formed, and the five ranges are what that means. -/
theorem refusedExactlyOutsideTheSpaces : Obligations.RefusedExactlyOutsideTheSpaces := by
  intro s e rest hp
  rw [step_of_pending hp, perform_refused_iff]
  cases e with
  | regRead n => simp [wf_regRead_eq_false]
  | regWrite n v => simp [wf_regWrite_eq_false]
  | bufRead sp a => cases sp <;> simp [wf_bufRead_eq_false] <;> omega
  | bufWrite sp a v => cases sp <;> simp [wf_bufWrite_eq_false] <;> omega
  | reset => simp [Event.wf]

end Sys2Proof.Machine

/-! SUPPORT. What a codec command reads (20_memory.md R76): a buffer whose bytes agree on the range it reads may stand in the place of
the other. -/

namespace Sys2Proof.Machine

theorem of_eq_mapNext {f : State → State} {o o' : Host.Outcome State Fault Refusal} (h : o' = mapNext f o) :
    (∀ r, o = .fault r → o' = .fault r) ∧ ∀ t, o = .next t → o' = .next (f t) :=
  ⟨fun _ ho => by rw [h, ho]; rfl, fun _ ho => by rw [h, ho]; rfl⟩

theorem execEncode_tooLarge {s : State} (h : 1000 < s.length.toNat) :
    execEncode s = .next (report .payloadTooLarge s) :=
  if_pos h

theorem execEncode_of_readBytes_error {s : State} {f : Fault} (hlen : s.length.toNat ≤ 1000)
    (hread : readBytes .pay s.pay 0 s.length.toNat = .error f) : execEncode s = .fault f := by
  unfold execEncode
  rw [maxPayload_eq, if_neg (by omega), hread]

theorem execEncode_setBuffer_pay {s : State} {m : Memory}
    (hm : s.length.toNat ≤ 1000 → ∀ a, a < s.length.toNat → Memory.read m a = Memory.read s.pay a) :
    execEncode (s.setBuffer .pay m) = mapNext (fun t => t.setBuffer .pay m) (execEncode s) := by
  by_cases hlong : 1000 < s.length.toNat
  · rw [execEncode_tooLarge hlong]
    exact execEncode_tooLarge hlong
  have hlen : s.length.toNat ≤ 1000 := by omega
  have hagree : readBytes .pay m 0 s.length.toNat = readBytes .pay s.pay 0 s.length.toNat :=
    readBytes_congr fun i hi => hm hlen (0 + i) (by omega)
  cases hread : readBytes .pay s.pay 0 s.length.toNat with
  | error f =>
    rw [execEncode_of_readBytes_error hlen hread]
    exact execEncode_of_readBytes_error hlen (hagree.trans hread)
  | ok P =>
    obtain ⟨hP, hpay⟩ := holds_of_readBytes hread
    obtain ⟨-, hm'⟩ := holds_of_readBytes (hagree.trans hread)
    rw [execEncode_of_holds hP (by omega) hpay]
    exact execEncode_of_holds hP (by omega) hm'

section
variable {s : State} {m : Memory}
  (hm : 7 ≤ s.pktlen.toNat → s.pktlen.toNat ≤ 1007 → ∀ a, a < s.pktlen.toNat → Memory.read m a = Memory.read s.pkt a)
include hm

/-- Any part of a frame of admissible length reads the same in both buffers. -/
theorem readBytes_pkt_congr {a n : Nat} (h7 : 7 ≤ s.pktlen.toNat) (h1007 : s.pktlen.toNat ≤ 1007)
    (han : a + n ≤ s.pktlen.toNat) : readBytes .pkt m a n = readBytes .pkt s.pkt a n :=
  readBytes_congr fun i hi => hm h7 h1007 (a + i) (by omega)

theorem frameCheck_setBuffer_pkt : frameCheck (s.setBuffer .pkt m) = frameCheck s := by
  by_cases hlong : 1007 < s.pktlen.toNat
  · rw [frameCheck_long hlong]
    exact frameCheck_long hlong
  by_cases hshort : s.pktlen.toNat < 7
  · rw [frameCheck_short hshort]
    exact frameCheck_short hshort
  have hread := readBytes_pkt_congr hm (a := 3) (n := 2) (by omega) (by omega) (by omega)
  unfold frameCheck
  rw [setBuffer_pkt_pkt, hread]
  rfl

/-- Once the checks have passed, the whole frame reads the same. -/
theorem readBytes_frame_congr (hc : frameCheck s = .ok none) :
    readBytes .pkt m 0 s.pktlen.toNat = readBytes .pkt s.pkt 0 s.pktlen.toNat := by
  obtain ⟨h7, h1007, -⟩ := frameCheck_none hc
  exact readBytes_pkt_congr hm h7 h1007 (by omega)

theorem execDecode_setBuffer_pkt :
    execDecode (s.setBuffer .pkt m) = mapNext (fun t => t.setBuffer .pkt m) (execDecode s) := by
  unfold execDecode
  rw [frameCheck_setBuffer_pkt hm]
  rcases hc : frameCheck s with f | _ | r
  · rfl
  · simp only [frameLen, setBuffer_pkt_pktlen, setBuffer_pkt_pkt, readBytes_frame_congr hm hc]
    cases readBytes .pkt s.pkt 0 s.pktlen.toNat <;> rfl
  · rfl

theorem execValidate_setBuffer_pkt :
    execValidate (s.setBuffer .pkt m) = mapNext (fun t => t.setBuffer .pkt m) (execValidate s) := by
  unfold execValidate
  rw [frameCheck_setBuffer_pkt hm]
  rcases hc : frameCheck s with f | _ | r
  · rfl
  · simp only [frameLen, setBuffer_pkt_pktlen, setBuffer_pkt_pkt, readBytes_frame_congr hm hc]
    rcases readBytes .pkt s.pkt 0 s.pktlen.toNat with f | F
    · rfl
    · by_cases hck : cksum (zck F) = ckf F <;> simp only [hck, if_true, if_false] <;> rfl
  · rfl

end

/-- Settles O43: the other buffer contents pass through the command. -/
theorem unreadBytesDoNotMatter : Obligations.UnreadBytesDoNotMatter := by
  refine ⟨fun s m hm => of_eq_mapNext (execEncode_setBuffer_pay hm), fun s m i hi hm => ?_⟩
  rcases hi with rfl | rfl
  · exact of_eq_mapNext (execDecode_setBuffer_pkt hm)
  · exact of_eq_mapNext (execValidate_setBuffer_pkt hm)

end Sys2Proof.Machine

/-! SUPPORT. Idempotence (20_memory.md R71): what a command wrote does not change what it reads, and writing the same bytes again
changes nothing. -/

namespace Sys2Proof.Machine

theorem writeAll_writeAll {m : Memory} (hm : Memory.wf m = true) (B : List Byte) :
    Memory.writeAll (Memory.writeAll m 0 B) 0 B = Memory.writeAll m 0 B :=
  writeAll_of_read (wf_writeAll 0 B hm) fun i hi => by
    rw [Nat.zero_add]
    exact holds_writeAll m B i hi

theorem storeFrame_again {s : State} (hs : s.Inv) (F : List Byte) (r : Reason) :
    report r (storeFrame F (report r (storeFrame F s))) = report r (storeFrame F s) := by
  obtain ⟨-, -, -, hpkt, -⟩ := hs
  have hagain := writeAll_writeAll hpkt F
  simp only [report, storeFrame, hagain]

theorem loadRecord_again {s : State} (hs : s.Inv) (F : List Byte) (r : Reason) :
    report r (loadRecord F (report r (loadRecord F s))) = report r (loadRecord F s) := by
  obtain ⟨-, hpay, -⟩ := hs
  have hagain := writeAll_writeAll hpay (payl F)
  simp only [report, loadRecord, hagain]

theorem execDecode_of_check {s : State} {r : Reason} (h : frameCheck s = .ok (some r)) :
    execDecode s = .next (report r s) := by
  unfold execDecode
  rw [h]
  rfl

theorem execValidate_of_check {s : State} {r : Reason} (h : frameCheck s = .ok (some r)) :
    execValidate s = verdict r s := by
  unfold execValidate
  rw [h]

theorem execEncode_idempotent {s t : State} (hs : s.Inv) (h : execEncode s = .next t) : execEncode t = .next t := by
  rcases execEncode_next h with ⟨hlong, rfl⟩ | ⟨hlen, P, hP, hpay, rfl⟩
  · exact execEncode_tooLarge hlong
  · exact Eq.trans (execEncode_of_holds (P := P) hP (by omega) hpay) (congrArg _ (storeFrame_again hs _ _))

theorem execDecode_idempotent {s t : State} (hs : s.Inv) (h : execDecode s = .next t) : execDecode t = .next t := by
  rcases execDecode_next h with ⟨r, hc, rfl⟩ | ⟨hc, F, hF, hpkt, rfl⟩
  · exact execDecode_of_check hc
  · have hw : wfFrame F = true := (frameCheck_of_holds hF.symm hpkt).mp hc
    exact Eq.trans (execDecode_of_wfFrame (F := F) hF.symm hpkt hw) (congrArg _ (loadRecord_again hs F _))

theorem execValidate_idempotent {s t : State} (h : execValidate s = .next t) : execValidate t = .next t := by
  rcases execValidate_next h with ⟨r, hc, hv⟩ | ⟨hc, F, hF, hpkt, hv⟩
  · cases hv
    exact execValidate_of_check hc
  · have hw : wfFrame F = true := (frameCheck_of_holds hF.symm hpkt).mp hc
    cases hv
    exact execValidate_of_wfFrame (F := F) hF.symm hpkt hw

/-- Settles O45, command by command; an engine command writes the same values of unchanged registers again. -/
theorem commandsAreIdempotent : Obligations.CommandsAreIdempotent := by
  intro i s t hs hi h
  cases i with
  | ckbyte b => exact absurd rfl (hi b)
  | ckinit | ckfin | ckvfy =>
    cases h
    rfl
  | encode => exact execEncode_idempotent hs h
  | decode => exact execDecode_idempotent hs h
  | validate => exact execValidate_idempotent h

end Sys2Proof.Machine

/-! SUPPORT. The encoder and the decoder are inverse to each other (30_encoding.md R92, R93, R103), and the legal command words as a
list (R95). -/

namespace Sys2Proof

open Machine

/-- A word that decodes is the word of its command: each row of R92 fixes every bit but the operand byte, which the command keeps. -/
theorem encode_of_decode {cw : Word} {i : Instr} (h : decode cw = .ok i) : encode i = cw := by
  rw [decode_ok_iff] at h
  rcases h with ⟨rfl, rfl⟩ | ⟨hop, rfl⟩ | ⟨rfl, rfl⟩ | ⟨rfl, rfl⟩ | ⟨rfl, rfl⟩ | ⟨rfl, rfl⟩ | ⟨rfl, rfl⟩
  case inr.inl => rw [encode_ckbyte, ← hop, be16_hi8_lo8]
  all_goals rfl

/-- Settles O2: `decode_encode` row by row, and `encode_of_decode` back. -/
theorem decodeAndEncodeAreInverse : Obligations.DecodeAndEncodeAreInverse :=
  ⟨fun i _ => decode_encode i, fun _ _ h => encode_of_decode h⟩

/-- Settles O1: the nine legal words are the encodings of their commands; the three others are decoded. -/
theorem specWordsDecodeAsTheTableSays : Obligations.SpecWordsDecodeAsTheTableSays :=
  ⟨decode_encode .ckinit, decode_encode (.ckbyte 0x00#8), decode_encode (.ckbyte 0x56#8), decode_encode (.ckbyte 0xFF#8),
    decode_encode .ckfin, decode_encode .ckvfy, decode_encode .encode, decode_encode .decode, decode_encode .validate,
    by decide, by decide, by decide⟩

/-- The operation code 0x02 of CKBYTE, as a range of words (R95). -/
theorem hi8_eq_ckbyte_iff (cw : Word) : hi8 cw = 0x02#8 ↔ 0x0200 ≤ cw.toNat ∧ cw.toNat ≤ 0x02FF := by
  rw [← BitVec.toNat_inj, hi8_toNat, BitVec.toNat_ofNat]
  omega

/-- The legal words (R95): the six of format `N`, and the range of CKBYTE. -/
theorem exists_decode_iff (cw : Word) :
    (∃ i, decode cw = .ok i) ↔
      cw ∈ [0x0100#16, 0x0300#16, 0x0400#16, 0x1000#16, 0x1100#16, 0x1200#16] ∨ (0x0200 ≤ cw.toNat ∧ cw.toNat ≤ 0x02FF) := by
  simp only [decode_ok_iff, exists_or, exists_and_left, exists_eq, and_true, hi8_eq_ckbyte_iff, List.mem_cons,
    List.not_mem_nil, or_false]
  tauto

/-- The numbers of the six words of format `N` (R95). -/
def formatNWords : List Nat := [0x0100, 0x0300, 0x0400, 0x1000, 0x1100, 0x1200]

/-- The numbers of the legal command words (R95). -/
def legalWords : List Nat := formatNWords ++ List.range' 0x0200 256

theorem mem_legalWords {n : Nat} : n ∈ legalWords ↔ n ∈ formatNWords ∨ (0x0200 ≤ n ∧ n ≤ 0x02FF) := by
  rw [legalWords, List.mem_append, List.mem_range'_1]
  exact or_congr_right (by omega)

theorem length_legalWords : legalWords.length = 262 := by
  rw [legalWords, List.length_append, List.length_range']
  rfl

/-- The six are 16-bit words outside the range of CKBYTE. -/
theorem formatNWords_bounds : ∀ n ∈ formatNWords, n < 65536 ∧ ¬ (0x0200 ≤ n ∧ n ≤ 0x02FF) := by
  decide

theorem nodup_legalWords : legalWords.Nodup := by
  refine List.nodup_append'.mpr ⟨by decide, List.nodup_range', fun n hn hrange => ?_⟩
  rw [List.mem_range'_1] at hrange
  exact (formatNWords_bounds n hn).2 (by omega)

theorem lt_of_mem_legalWords {n : Nat} (h : n ∈ legalWords) : n < 65536 := by
  rcases mem_legalWords.mp h with hformatN | hckbyte
  · exact (formatNWords_bounds n hformatN).1
  · omega

theorem exists_decode_ofNat_iff {n : Nat} (hn : n < 65536) :
    (∃ i, decode (BitVec.ofNat 16 n) = .ok i) ↔ n ∈ legalWords := by
  have htoNat : (BitVec.ofNat 16 n).toNat = n := by
    rw [BitVec.toNat_ofNat, Nat.mod_eq_of_lt (by omega)]
  simp only [exists_decode_iff, mem_legalWords, formatNWords, List.mem_cons, ← BitVec.toNat_inj, htoNat, List.not_mem_nil]
  rfl

/-- A Boolean test that holds of a number exactly when its word is legal selects 262 of the 65536 numbers. -/
theorem length_filter_legal {p : Nat → Bool} (hp : ∀ n, p n = true ↔ ∃ i, decode (BitVec.ofNat 16 n) = .ok i) :
    ((List.range 65536).filter p).length = 262 := by
  have hperm : ((List.range 65536).filter p).Perm legalWords := by
    refine (List.perm_ext_iff_of_nodup (List.nodup_range.filter p) nodup_legalWords).mpr fun n => ?_
    rw [List.mem_filter, List.mem_range, hp]
    exact ⟨fun ⟨hn, hlegal⟩ => (exists_decode_ofNat_iff hn).mp hlegal, fun hmem =>
      have hn := lt_of_mem_legalWords hmem
      ⟨hn, (exists_decode_ofNat_iff hn).mpr hmem⟩⟩
  rw [hperm.length_eq, length_legalWords]

end Sys2Proof

namespace Sys2Proof.Machine

theorem runCommand_illegal {cw : Word} (s : State) (h : ¬ ∃ i, decode cw = .ok i) :
    runCommand cw s = .next { s with err := 6 } := by
  cases hd : decode cw with
  | ok i => exact absurd ⟨i, hd⟩ h
  | error e => exact runCommand_of_error s hd

/-- Settles O3: the legal words are the list `legalWords`, and the decoder rejects any other. -/
theorem legalWordsAreThe262 : Obligations.LegalWordsAreThe262 := by
  refine ⟨exists_decode_iff, length_filter_legal fun n => ?_, fun cw s h => runCommand_illegal s h⟩
  cases decode (BitVec.ofNat 16 n) <;> simp

/-- Settles O4: a number outside `legalWords` is a word the decoder rejects. -/
theorem illegalWordOnlySetsErr : Obligations.IllegalWordOnlySetsErr := by
  intro s v rest hv hp hformatN hckbyte
  have hmem : v ∉ legalWords := fun h => (mem_legalWords.mp h).elim hformatN hckbyte
  exact step_regWrite_cmd_illegal hv hp fun i hi => hmem ((exists_decode_ofNat_iff (by omega)).mp ⟨i, hi⟩)

end Sys2Proof.Machine

/-! SUPPORT. The script lines `WB` (30_encoding.md R104, R105): each stores its byte, so consecutive ones store consecutive bytes. -/

namespace Sys2Proof.Machine

theorem step_wb {s : State} {sp : BufSpace} {a : Nat} {b : Byte} {rest : List Event} (ha : a < sp.capacity)
    (h : s.pending = wb sp a b :: rest) :
    step s = .next (({ s with pending := rest } : State).setBuffer sp (Memory.write (s.buffer sp) a b)) := by
  have hb := b.isLt
  rw [step_bufWrite (v := b.toNat) h ha (by omega), BitVec.ofNat_toNat, BitVec.setWidth_eq]

/-- A later replacement of the same buffer, with other events to come, stands alone. -/
theorem setBuffer_with_pending_setBuffer (s : State) (sp : BufSpace) (m m' : Memory) (p : List Event) :
    ({ s.setBuffer sp m with pending := p } : State).setBuffer sp m' = ({ s with pending := p } : State).setBuffer sp m' := by
  cases sp <;> rfl

theorem run_wbAll {s : State} {sp : BufSpace} {a : Nat} {B : List Byte} {rest : List Event} (hB : a + B.length ≤ sp.capacity)
    (h : s.pending = wbAll sp a B ++ rest) :
    Host.Core.run core B.length s
      = .next (({ s with pending := rest } : State).setBuffer sp (Memory.writeAll (s.buffer sp) a B)) := by
  induction B generalizing s a with
  | nil =>
    obtain rfl : s.pending = rest := h
    cases sp <;> rfl
  | cons b B ih =>
    rw [List.length_cons] at hB ⊢
    rw [run_succ_of_next (step_wb (by omega) h), ih (by omega) (setBuffer_pending _ sp _), buffer_setBuffer_same,
      ← writeAll_cons]
    exact congrArg _ (setBuffer_with_pending_setBuffer _ sp _ _ rest)

/-- The lines of LOADPKT and LOADPAY (R105): the bytes of `B`, then one register write. -/
theorem run_wbAll_wr {s : State} {sp : BufSpace} {r : Reg} {v : Word} {B : List Byte} {rest : List Event}
    (hB : B.length ≤ sp.capacity) (h : s.pending = (wbAll sp 0 B ++ [wr r v]) ++ rest) :
    Host.Core.run core (B.length + 1) s
      = Host.Core.run core 1 (({ s with pending := wr r v :: rest } : State).setBuffer sp
          (Memory.writeAll (s.buffer sp) 0 B)) :=
  run_add_of_next (run_wbAll (by omega) (by rw [h, List.append_assoc]; rfl))

theorem run_loadPkt {s : State} {B : List Byte} {rest : List Event} (hB : B.length ≤ 1007)
    (h : s.pending = loadPkt B ++ rest) :
    Host.Core.run core (B.length + 1) s
      = .next { s with pending := rest, pkt := Memory.writeAll s.pkt 0 B, pktlen := BitVec.ofNat 16 B.length } := by
  rw [run_wbAll_wr hB h]
  exact run_succ_of_next (step_wr (r := .pktlen) rfl)

theorem run_loadPay {s : State} {B : List Byte} {rest : List Event} (hB : B.length ≤ 1000)
    (h : s.pending = loadPay B ++ rest) :
    Host.Core.run core (B.length + 1) s
      = .next { s with pending := rest, pay := Memory.writeAll s.pay 0 B, length := BitVec.ofNat 16 B.length } := by
  rw [run_wbAll_wr hB h]
  exact run_succ_of_next (step_wr (r := .length) rfl)

/-- Settles O14: the bytes written stand in the buffer, and above them it is as before. -/
theorem loadAbbreviationsFillTheBuffer : Obligations.LoadAbbreviationsFillTheBuffer :=
  ⟨fun s B _ hB h => ⟨_, run_loadPkt hB h, rfl, holds_writeAll s.pkt B, fun _ => read_writeAll_above s.pkt B⟩,
    fun s B _ hB h => ⟨_, run_loadPay hB h, rfl, holds_writeAll s.pay B, fun _ => read_writeAll_above s.pay B⟩⟩

end Sys2Proof.Machine

/-! SUPPORT. The bytes of a 16-bit field in a frame (30_encoding.md R97, 20_memory.md R69). -/

namespace Sys2Proof.Machine

theorem hi8_eq_ofNat (v : Word) : hi8 v = BitVec.ofNat 8 (v.toNat / 256) := by
  rw [← hi8_toNat, BitVec.ofNat_toNat, BitVec.setWidth_eq]

theorem lo8_eq_ofNat (v : Word) : lo8 v = BitVec.ofNat 8 (v.toNat % 256) := by
  rw [← lo8_toNat, BitVec.ofNat_toNat, BitVec.setWidth_eq]

/-- Settles O29, from the two bytes of a field and the lemmas on the fields of `ser`. -/
theorem wireFormatFieldOffsets : Obligations.WireFormatFieldOffsets := by
  refine fun seq ack flags len ck P => ⟨?_, length_ser .., ?_⟩
  · rw [ser, hi8_eq_ofNat, lo8_eq_ofNat, hi8_eq_ofNat, lo8_eq_ofNat]
  · rintro F rfl
    exact ⟨seqOf_ser .., ackOf_ser .., flagsOf_ser .., lenf_ser .., ckf_ser .., payl_ser .., zck_ser ..⟩

end Sys2Proof.Machine

/-! SUPPORT. The stream theorem (41_checksum_engine.md R129): what one event does to the stream state and to the bytes absorbed, case by
case, and the induction over the events of a run. -/

namespace Sys2Proof.Machine

/-! The bytes absorbed, one equation per kind of event. -/

@[simp] theorem absorb_reset (B : List Byte) : absorb B .reset = [] := rfl

theorem absorb_of_no_command {e : Event} (B : List Byte) (hc : e.command? = none) (he : e ≠ .reset) : absorb B e = B := by
  rw [absorb, hc]
  exact if_neg he

theorem absorb_of_ckinit {e : Event} (B : List Byte) (hc : e.command? = some .ckinit) : absorb B e = [] := by
  rw [absorb, hc]

theorem absorb_of_ckbyte {e : Event} {b : Byte} (B : List Byte) (hc : e.command? = some (.ckbyte b)) :
    absorb B e = B ++ [b] := by
  rw [absorb, hc]

theorem absorb_of_other_command {e : Event} {i : Instr} (B : List Byte) (hc : e.command? = some i) (hinit : i ≠ .ckinit)
    (hbyte : ∀ b, i ≠ .ckbyte b) : absorb B e = B := by
  rw [absorb, hc]
  cases i with
  | ckinit => exact absurd rfl hinit
  | ckbyte b => exact absurd rfl (hbyte b)
  | ckfin | ckvfy | encode | decode | validate => rfl

/-! The stream state. -/

theorem streamOf_nil {s : State} (hacc : s.ckacc = 0) (hodd : s.odd = false) : s.StreamOf [] :=
  ⟨by rw [hacc]; rfl, hodd⟩

/-- The stream state lies in `CKACC` and `ODD` alone. -/
theorem streamOf_congr {B : List Byte} {s t : State} (hs : s.StreamOf B) (hacc : t.ckacc = s.ckacc) (hodd : t.odd = s.odd) :
    t.StreamOf B :=
  ⟨hacc ▸ hs.1, hodd ▸ hs.2⟩

theorem ckacc_of_streamOf {B : List Byte} {s : State} (hs : s.StreamOf B) : s.ckacc = BitVec.ofNat 16 (fold (wsum B)) :=
  BitVec.eq_of_toNat_eq (hs.1.trans (toNat_ofNat_fold _).symm)

/-- What CKFIN and CKVFY take from `CKACC` is the checksum of the bytes absorbed. -/
theorem not16_ckacc_of_streamOf {B : List Byte} {s : State} (hs : s.StreamOf B) : not16 s.ckacc = cksum B := by
  rw [ckacc_of_streamOf hs, cksum]

/-- CKBYTE (R126) keeps accumulator and parity in step with the bytes. -/
theorem streamOf_ckbyte {B : List Byte} {s t : State} (hs : s.StreamOf B) {b : Byte} (h : exec (.ckbyte b) s = .next t) :
    t.StreamOf (B ++ [b]) := by
  obtain ⟨hacc, hodd⟩ := hs
  cases h
  refine ⟨?_, ?_⟩
  · show (ocAdd s.ckacc (ckbyteAddend s.odd b)).toNat = _
    rw [hodd, ocAdd_ckbyteAddend hacc]
  · show (!s.odd) = _
    rw [hodd, not_odd_length]

/-- An event that starts a command does what the command does. -/
theorem perform_of_command {e : Event} {i : Instr} (hc : e.command? = some i) (s : State) : perform e s = exec i s := by
  cases hw : e.commandWord? with
  | none => simp [Event.command?, hw] at hc
  | some cw =>
    cases hd : decode cw with
    | error _ => simp [Event.command?, hw, hd] at hc
    | ok j =>
      obtain rfl : j = i := by simpa [Event.command?, hw, hd] using hc
      rw [perform_of_commandWord hw, runCommand_of_ok s hd]

/-- One event (R129): it changes the stream state as it changes the bytes absorbed. -/
theorem perform_streamOf {e : Event} {B : List Byte} {s t : State} (hs : s.StreamOf B) (h : perform e s = .next t) :
    t.StreamOf (absorb B e) := by
  by_cases he : e = .reset
  · subst he
    cases h
    exact streamOf_nil rfl rfl
  cases hc : e.command? with
  | none =>
    rw [absorb_of_no_command B hc he]
    obtain ⟨i, hi, -⟩ | hf := perform_frame he h
    · simp [hc] at hi
    · exact streamOf_congr hs hf.ckacc hf.odd
  | some i =>
    rw [perform_of_command hc] at h
    have hf := exec_frame h
    cases i with
    | ckinit =>
      rw [absorb_of_ckinit B hc]
      cases h
      exact streamOf_nil rfl rfl
    | ckbyte b =>
      rw [absorb_of_ckbyte B hc]
      exact streamOf_ckbyte hs h
    | ckfin | ckvfy | encode | decode | validate =>
      rw [absorb_of_other_command B hc (by simp) (by simp)]
      exact streamOf_congr hs (hf.ckacc (by simp) (by simp)) (hf.odd (by simp) (by simp))

/-- The run of the events `es`, by induction on them. -/
theorem run_streamOf {es rest : List Event} {B : List Byte} {s t : State} (hp : s.pending = es ++ rest) (hs : s.StreamOf B)
    (h : Host.Core.run core es.length s = .next t) : t.StreamOf (es.foldl absorb B) ∧ t.pending = rest := by
  induction es generalizing B s with
  | nil =>
    cases h
    exact ⟨hs, hp⟩
  | cons e es ih =>
    obtain ⟨u, hu, hrun⟩ := run_succ h
    have hpend : u.pending = es ++ rest := step_pending hp hu
    rw [step_of_pending hp] at hu
    exact ih hpend (perform_streamOf (s := { s with pending := es ++ rest }) hs hu) hrun

/-- Settles O26: the run, the reset state, and the two commands that read the stream off `CKACC`. -/
theorem streamStateFollowsTheBytes : Obligations.StreamStateFollowsTheBytes := by
  refine ⟨fun es rest B s t hp hs h => run_streamOf hp hs h, fun p => streamOf_nil rfl rfl, fun B s hs => ?_⟩
  rw [exec_ckfin, exec_ckvfy, not16_ckacc_of_streamOf hs]
  exact ⟨rfl, rfl⟩

end Sys2Proof.Machine

/-! SUPPORT. The arithmetic of the checksum (41_checksum_engine.md R121 to R130): the word sum by offsets, the end-around-carry sum, and
the values of `fold` and `cksum`. -/

namespace Sys2Proof.Machine

/-! The word sum by offsets (R121). -/

/-- What a byte at offset `k` counts in the word sum. -/
def offsetWeight (k : Nat) : Nat := if k % 2 = 0 then 256 else 1

theorem offsetWeight_pos (k : Nat) : 0 < offsetWeight k := by
  unfold offsetWeight
  split_ifs <;> omega

theorem offsetWeight_le (k : Nat) : offsetWeight k ≤ 256 := by
  unfold offsetWeight
  split_ifs <;> omega

@[simp] theorem offsetWeight_add_two (k : Nat) : offsetWeight (k + 2) = offsetWeight k := by
  rw [offsetWeight, offsetWeight, Nat.add_mod_right]

theorem wsum_snoc_offsetWeight (B : List Byte) (b : Byte) :
    wsum (B ++ [b]) = wsum B + b.toNat * offsetWeight B.length := by
  rw [wsum_snoc, offsetWeight]
  split_ifs <;> omega

theorem byteAt_append_of_lt {B C : List Byte} {k : Nat} (h : k < B.length) : byteAt (B ++ C) k = byteAt B k :=
  List.getD_append _ _ _ _ h

theorem byteAt_append_length (B : List Byte) (b : Byte) : byteAt (B ++ [b]) B.length = b := by
  simp [byteAt]

/-- Settles O17, by induction on the sequence from its end: one byte more is one offset more. -/
theorem wordSumByOffsets : Obligations.WordSumByOffsets := by
  intro B
  change wsum B = ((List.range B.length).map fun k => (byteAt B k).toNat * offsetWeight k).sum
  induction B using List.reverseRecOn with
  | nil => rfl
  | append_singleton B b ih =>
    have hinit : ∀ k ∈ List.range B.length,
        (byteAt (B ++ [b]) k).toNat * offsetWeight k = (byteAt B k).toNat * offsetWeight k := fun k hk => by
      rw [byteAt_append_of_lt (List.mem_range.mp hk)]
    rw [wsum_snoc_offsetWeight, List.length_append, List.length_singleton, List.range_succ, List.map_append,
      List.sum_append, List.map_congr_left hinit, ← ih, List.map_singleton, List.sum_singleton, byteAt_append_length]

/-! `oc_add` (R122). -/

theorem ocAdd_toNat_eq_ite (a b : Word) : (ocAdd a b).toNat =
    if a.toNat + b.toNat ≤ 0xFFFF then a.toNat + b.toNat else a.toNat + b.toNat - 0xFFFF := by
  rw [ocAdd_toNat]
  split_ifs <;> omega

theorem ocAdd_comm (a b : Word) : ocAdd a b = ocAdd b a := by
  rw [ocAdd, ocAdd, Nat.add_comm a.toNat]

/-- A nested sum is the fold of the exact sum of three. -/
theorem ocAdd_ocAdd_toNat (a b d : Word) : (ocAdd (ocAdd a b) d).toNat = fold (a.toNat + b.toNat + d.toNat) := by
  rw [ocAdd_toNat_eq_fold, ocAdd_toNat_eq_fold, fold_fold_add]

theorem ocAdd_assoc (a b d : Word) : ocAdd (ocAdd a b) d = ocAdd a (ocAdd b d) := by
  apply BitVec.eq_of_toNat_eq
  rw [ocAdd_comm a (ocAdd b d), ocAdd_ocAdd_toNat, ocAdd_ocAdd_toNat]
  congr 1
  omega

theorem ocAdd_zero (a : Word) : ocAdd a 0x0000#16 = a := by
  apply BitVec.eq_of_toNat_eq
  rw [ocAdd_toNat_eq_fold, BitVec.toNat_ofNat, Nat.zero_mod, Nat.add_zero, fold_of_le (by omega)]

/-- The other zero of ones' complement is absorbed. -/
theorem ocAdd_ones {a : Word} (h : a ≠ 0x0000#16) : ocAdd a 0xFFFF#16 = a := by
  have hpos : a.toNat ≠ 0 := fun h0 => h (BitVec.eq_of_toNat_eq h0)
  apply BitVec.eq_of_toNat_eq
  rw [ocAdd_toNat_eq_ite, BitVec.toNat_ofNat]
  split_ifs <;> omega

/-- A sum is zero only when both summands are. -/
theorem ocAdd_ne_zero {a : Word} (h : a ≠ 0x0000#16) (b : Word) : ocAdd a b ≠ 0x0000#16 := by
  intro h0
  have hsum := congrArg BitVec.toNat h0
  rw [ocAdd_toNat_eq_ite, BitVec.toNat_ofNat] at hsum
  have hpos : a.toNat ≠ 0 := fun h0 => h (BitVec.eq_of_toNat_eq h0)
  split_ifs at hsum <;> omega

/-- Settles O18, from the two forms of `oc_add` and its laws. -/
theorem ocAddIsFoldOfTheSum : Obligations.OcAddIsFoldOfTheSum :=
  ⟨fun a b => ⟨ocAdd_toNat_eq_ite a b, fun h => by omega, ocAdd_toNat_eq_fold a b, ocAdd_comm a b⟩, ocAdd_assoc⟩

/-! The values of `fold` and `cksum` (R124). -/

theorem fold_eq_zero {x : Nat} : fold x = 0 ↔ x = 0 := by
  have h := fold_eq x
  split_ifs at h <;> omega

theorem fold_eq_ones {x : Nat} : fold x = 0xFFFF ↔ 0 < x ∧ 65535 ∣ x := by
  have h := fold_eq x
  split_ifs at h <;> omega

theorem wsum_eq_zero {B : List Byte} : wsum B = 0 ↔ ∀ b ∈ B, b = 0x00#8 := by
  have hbyte (b : Byte) : b = 0x00#8 ↔ b.toNat = 0 := BitVec.toNat_inj.symm
  induction B using pair_induction with
  | h0 => simp
  | h1 b => simp [hbyte]
  | h2 h l B ih =>
    rw [wsum_cons_cons, List.forall_mem_cons, List.forall_mem_cons, ih.symm, hbyte, hbyte]
    omega

theorem cksum_congr {B C : List Byte} (h : wsum B = wsum C) : cksum B = cksum C := by
  rw [cksum, cksum, h]

theorem cksum_eq_iff {B C : List Byte} : cksum B = cksum C ↔ fold (wsum B) = fold (wsum C) := by
  have hB := fold_le (wsum B)
  have hC := fold_le (wsum C)
  rw [← BitVec.toNat_inj, cksum_toNat, cksum_toNat]
  omega

theorem cksum_eq_ones {B : List Byte} : cksum B = 0xFFFF#16 ↔ ∀ b ∈ B, b = 0x00#8 := by
  have hle := fold_le (wsum B)
  rw [← wsum_eq_zero, ← fold_eq_zero, ← BitVec.toNat_inj, cksum_toNat, BitVec.toNat_ofNat]
  omega

theorem cksum_eq_zero {B : List Byte} : cksum B = 0x0000#16 ↔ 0 < wsum B ∧ 65535 ∣ wsum B := by
  have hle := fold_le (wsum B)
  rw [← fold_eq_ones, ← BitVec.toNat_inj, cksum_toNat, BitVec.toNat_ofNat]
  omega

theorem wsum_append_zeros (B : List Byte) (k : Nat) : wsum (B ++ List.replicate k 0x00#8) = wsum B := by
  induction k with
  | zero => rw [List.replicate_zero, List.append_nil]
  | succ k ih =>
    rw [List.replicate_succ', ← List.append_assoc, wsum_snoc, ih]
    simp

/-- Settles O19, from the closed form of `fold` and what makes the word sum zero. -/
theorem foldClosedFormAndChecksumCorners : Obligations.FoldClosedFormAndChecksumCorners :=
  ⟨fold_eq, fun _ => fold_eq_ones, cksum_eq_ones.mpr (by simp), fun _ => cksum_eq_ones, fun _ => cksum_eq_zero,
    fun B k => cksum_congr (wsum_append_zeros B k)⟩

/-- Settles O20: the laws of `oc_add`, and a sum does not depend on the order of its words. -/
theorem engineArithmeticLaws : Obligations.EngineArithmeticLaws :=
  ⟨fun a b d => ⟨ocAdd_comm a b, ocAdd_assoc a b d, ocAdd_ocAdd_toNat a b d, ocAdd_zero a⟩, fun _ h => ocAdd_ones h,
    by decide, fun _ _ h => cksum_congr (h.map BitVec.toNat).sum_eq, by decide, by decide⟩

end Sys2Proof.Machine

/-! SUPPORT. One changed byte (41_checksum_engine.md R132): a flipped bit moves the word sum by less than 65535, and `fold` tells two
values at such a distance apart. -/

namespace Sys2Proof.Machine

theorem or_eq_xor_of_and_eq_zero {w : Nat} {x m : BitVec w} (h : x &&& m = 0#w) : x ||| m = x ^^^ m := by
  ext i hi
  have hbit : (x &&& m)[i] = false := by rw [h, BitVec.getElem_zero]
  simp only [BitVec.getElem_and, BitVec.getElem_or, BitVec.getElem_xor] at hbit ⊢
  revert hbit
  cases x[i] <;> cases m[i] <;> decide

/-- Setting a clear bit adds its weight. -/
theorem toNat_xor_of_clear {b : Byte} {j : Nat} (hj : j < 8) (h : b.getLsbD j = false) :
    (b ^^^ BitVec.twoPow 8 j).toNat = b.toNat + 2 ^ j := by
  have hand : b &&& BitVec.twoPow 8 j = 0#8 := by rw [BitVec.and_twoPow, if_neg (by simp [h])]
  rw [← or_eq_xor_of_and_eq_zero hand, ← BitVec.add_eq_or_of_and_eq_zero _ _ hand, BitVec.toNat_add_of_and_eq_zero hand,
    BitVec.toNat_twoPow, Nat.mod_eq_of_lt (Nat.pow_lt_pow_right (by omega) hj)]

/-- A flipped bit moves a byte by the weight of the bit, up or down. -/
theorem toNat_flip (b : Byte) {j : Nat} (hj : j < 8) :
    (b ^^^ (1#8 <<< j)).toNat = b.toNat + 2 ^ j ∨ b.toNat = (b ^^^ (1#8 <<< j)).toNat + 2 ^ j := by
  rw [← BitVec.twoPow_eq]
  cases h : b.getLsbD j with
  | false => exact .inl (toNat_xor_of_clear hj h)
  | true =>
    have hclear : (b ^^^ BitVec.twoPow 8 j).getLsbD j = false := by simp [h, hj]
    have hback := toNat_xor_of_clear hj hclear
    rw [BitVec.xor_assoc, BitVec.xor_self, BitVec.xor_zero] at hback
    exact .inr hback

/-- A byte put in the place of another changes the word sum by the difference of the two at the weight of the offset (R121). -/
theorem wsum_set {B : List Byte} {k : Nat} (hk : k < B.length) (v : Byte) :
    wsum (B.set k v) + (byteAt B k).toNat * offsetWeight k = wsum B + v.toNat * offsetWeight k := by
  induction B using pair_induction generalizing k with
  | h0 => simp at hk
  | h1 b =>
    obtain rfl : k = 0 := by simpa using hk
    simp [byteAt, offsetWeight, Nat.add_comm]
  | h2 h l B ih =>
    match k, hk with
    | 0, _ =>
      change wsum (v :: l :: B) + h.toNat * 256 = wsum (h :: l :: B) + v.toNat * 256
      rw [wsum_cons_cons, wsum_cons_cons]
      omega
    | 1, _ =>
      change wsum (h :: v :: B) + l.toNat * 1 = wsum (h :: l :: B) + v.toNat * 1
      rw [wsum_cons_cons, wsum_cons_cons]
      omega
    | k + 2, hk =>
      have htail := ih (k := k) (by simpa using hk)
      have hbyte : byteAt (h :: l :: B) (k + 2) = byteAt B k := rfl
      rw [List.set_cons_succ, List.set_cons_succ, wsum_cons_cons, wsum_cons_cons, hbyte, offsetWeight_add_two]
      omega

theorem fold_ne_of_eq_add {x y d : Nat} (hpos : 0 < d) (hlt : d < 65535) (h : y = x + d) : fold y ≠ fold x := by
  rw [h, fold_eq, fold_eq]
  split_ifs <;> omega

/-- Settles O21: the two word sums differ by `2 ^ j`, weighted 256 or 1, which is above 0 and below 65535. -/
theorem singleBitFlipChangesTheChecksum : Obligations.SingleBitFlipChangesTheChecksum := by
  refine ⟨fun B k j hk hj heq => ?_, by decide⟩
  have hfold := cksum_eq_iff.mp heq
  have hpos : 0 < 2 ^ j * offsetWeight k := Nat.mul_pos (Nat.two_pow_pos j) (offsetWeight_pos k)
  have hlt : 2 ^ j * offsetWeight k < 65535 := calc
    2 ^ j * offsetWeight k ≤ 2 ^ 7 * 256 := Nat.mul_le_mul (Nat.pow_le_pow_right (by omega) (by omega)) (offsetWeight_le k)
    _ < 65535 := by omega
  have hset := wsum_set hk (byteAt B k ^^^ (1#8 <<< j))
  rcases toNat_flip (byteAt B k) hj with hup | hdown
  · rw [hup, Nat.add_mul] at hset
    exact fold_ne_of_eq_add hpos hlt (by omega) hfold
  · rw [hdown, Nat.add_mul] at hset
    exact fold_ne_of_eq_add hpos hlt (by omega) hfold.symm

end Sys2Proof.Machine

/-! SUPPORT. The engine commands (41_checksum_engine.md R125 to R128, R133): each as its rule words it, and a stream that goes on after a
CKFIN. -/

namespace Sys2Proof.Machine

/-- Settles O22: CKINIT's word and its meaning. -/
theorem ckinitClearsTheStream : Obligations.CkinitClearsTheStream :=
  ⟨decode_encode .ckinit, exec_ckinit⟩

/-- Settles O23: the addend is the byte at its weight, and `oc_add` does the rest. -/
theorem ckbyteAbsorbsOneByte : Obligations.CkbyteAbsorbsOneByte := by
  refine fun b s => ⟨decode_encode (.ckbyte b), _, exec_ckbyte b s, rfl, ?_, fun h => ocAdd_ne_zero h _, ?_⟩
  · rintro a rfl
    rw [← ckbyteAddend_toNat]
    exact ocAdd_toNat_eq_ite _ _
  · rintro rfl
    have haddend : ckbyteAddend s.odd 0x00#8 = 0x0000#16 := by cases s.odd <;> rfl
    exact haddend ▸ ocAdd_zero s.ckacc

theorem not16_eq_ofNat (v : Word) : not16 v = BitVec.ofNat 16 (0xFFFF - v.toNat) := by
  rw [← not16_toNat, BitVec.ofNat_toNat, BitVec.setWidth_eq]

/-- Settles O24: the bitwise complement is the difference to 0xFFFF. -/
theorem ckfinDeliversTheComplement : Obligations.CkfinDeliversTheComplement :=
  ⟨decode_encode .ckfin, fun s => by rw [exec_ckfin, not16_eq_ofNat]⟩

/-- Settles O25: two words are equal when their values are. -/
theorem ckvfyComparesWithExpect : Obligations.CkvfyComparesWithExpect := by
  refine ⟨decode_encode .ckvfy, fun s => ⟨_, exec_ckvfy s, ?_⟩⟩
  rw [decide_eq_true_iff, ← BitVec.toNat_inj, not16_toNat]

theorem streamOf_afterStream (s : State) (B : List Byte) (rest : List Event) : (s.afterStream B rest).StreamOf B :=
  ⟨toNat_ofNat_fold _, rfl⟩

/-- CKFIN leaves a state from which the stream goes on. -/
theorem step_ckfin_of_streamOf {B : List Byte} {s : State} {rest : List Event} (hs : s.StreamOf B)
    (hp : s.pending = command .ckfin :: rest) :
    step s = .next (({ s with cksum := cksum B } : State).afterStream B rest) := by
  rw [step_command hp, exec_ckfin, State.afterStream]
  simp only [not16_ckacc_of_streamOf hs, ← ckacc_of_streamOf hs, ← hs.2]

/-- Settles O27: after the first CKFIN the stream of `B` takes up the bytes of `D`, and the second CKFIN reads off `B ++ D`. -/
theorem streamContinuesAfterCkfin : Obligations.StreamContinuesAfterCkfin := by
  intro B D s rest hs hp
  have hfin := step_ckfin_of_streamOf hs hp
  have hrun := run_ckbytes_afterStream { s with cksum := cksum B } B D (command .ckfin :: rest)
  have hlast := step_ckfin_of_streamOf (streamOf_afterStream { s with cksum := cksum B } (B ++ D) (command .ckfin :: rest)) rfl
  have htotal := (run_succ_of_next hfin).trans ((run_add_of_next (k := 1) hrun).trans (run_succ_of_next hlast))
  exact ⟨_, _, hfin, rfl, htotal, rfl, rfl⟩

end Sys2Proof.Machine

/-! SUPPORT. Frames (30_encoding.md R97, R98, R102; 42_packet_codec.md R150, R151): when a serialised frame is well formed and valid, what
`enc` makes, and which bytes the checksum field does not touch. -/

namespace Sys2Proof.Machine

theorem wfFrame_iff {F : List Byte} :
    wfFrame F = true ↔ 7 ≤ F.length ∧ F.length ≤ 1007 ∧ F.length - 7 = (lenf F).toNat := by
  simp [wfFrame, and_assoc]

theorem validFrame_iff {F : List Byte} : validFrame F = true ↔ wfFrame F = true ∧ cksum (zck F) = ckf F := by
  simp [validFrame]

/-- A frame given by its header bytes (R96). -/
theorem bytes_eq_ser (b0 b1 b2 b3 b4 b5 b6 : Byte) (P : List Byte) :
    [b0, b1, b2, b3, b4, b5, b6] ++ P = ser b0 b1 b2 (be16 b3 b4) (be16 b5 b6) P := by
  rw [ser, hi8_be16, lo8_be16, hi8_be16, lo8_be16]

theorem wfFrame_ser {seq ack flags : Byte} {len ck : Word} {P : List Byte} :
    wfFrame (ser seq ack flags len ck P) = true ↔ P.length ≤ 1000 ∧ P.length = len.toNat := by
  rw [wfFrame_iff, length_ser, lenf_ser]
  omega

/-- The length field and the payload of a well-formed frame agree (R102). -/
theorem length_payl_of_wfFrame {F : List Byte} (hw : wfFrame F = true) :
    (payl F).length = (lenf F).toNat ∧ (payl F).length ≤ 1000 := by
  obtain ⟨h7, h1007, hlen⟩ := wfFrame_iff.mp hw
  rw [length_payl]
  omega

theorem ofNat_toNat_length {n : Nat} {len : Word} (h : n = len.toNat) : BitVec.ofNat 16 n = len := by
  rw [h, BitVec.ofNat_toNat, BitVec.setWidth_eq]

/-- `enc` of a payload whose length is `len` (R150). -/
theorem enc_eq_ser {len : Word} {P : List Byte} (h : P.length = len.toNat) (seq ack flags : Byte) :
    enc seq ack flags P = ser seq ack flags len (cksum (ser seq ack flags len 0x0000#16 P)) P := by
  rw [enc, ofNat_toNat_length h]

theorem ckf_enc (seq ack flags : Byte) (P : List Byte) :
    ckf (enc seq ack flags P) = cksum (zck (enc seq ack flags P)) := by
  rw [enc, ckf_ser, zck_ser]

/-- What ENCODE makes is a valid frame (R154). -/
theorem validFrame_enc {P : List Byte} (h : P.length ≤ 1000) (seq ack flags : Byte) :
    validFrame (enc seq ack flags P) = true := by
  refine validFrame_iff.mpr ⟨wfFrame_ser.mpr ⟨h, ?_⟩, (ckf_enc seq ack flags P).symm⟩
  rw [BitVec.toNat_ofNat, Nat.mod_eq_of_lt (by omega)]

theorem zck_eq_ser {F : List Byte} (h : 7 ≤ F.length) :
    zck F = ser (seqOf F) (ackOf F) (flagsOf F) (lenf F) 0x0000#16 (payl F) := by
  conv_lhs => rw [← ser_fields h]
  rw [zck_ser]

/-- Encoding the fields of a well-formed frame replaces its checksum field by the checksum (R164). -/
theorem enc_fields {F : List Byte} (hw : wfFrame F = true) :
    enc (seqOf F) (ackOf F) (flagsOf F) (payl F)
      = ser (seqOf F) (ackOf F) (flagsOf F) (lenf F) (cksum (zck F)) (payl F) := by
  rw [enc_eq_ser (length_payl_of_wfFrame hw).1, zck_eq_ser (wfFrame_iff.mp hw).1]

/-- The checksum field stands at offsets 5 and 6 and nowhere else (R96). -/
theorem getElem?_ser_of_ne {i : Nat} (h5 : i ≠ 5) (h6 : i ≠ 6) (seq ack flags : Byte) (len ck ck' : Word) (P : List Byte) :
    (ser seq ack flags len ck P)[i]? = (ser seq ack flags len ck' P)[i]? := by
  match i with
  | 0 | 1 | 2 | 3 | 4 => rfl
  | 5 => exact absurd rfl h5
  | 6 => exact absurd rfl h6
  | i + 7 => rfl

/-- A well-formed frame is what `enc` makes of its fields exactly when it is valid (R164). -/
theorem enc_fields_eq_iff {F : List Byte} (hw : wfFrame F = true) :
    enc (seqOf F) (ackOf F) (flagsOf F) (payl F) = F ↔ validFrame F = true := by
  have hF := ser_fields (wfFrame_iff.mp hw).1
  rw [enc_fields hw, validFrame_iff]
  constructor
  · intro h
    have hck := congrArg ckf h
    rw [ckf_ser] at hck
    exact ⟨hw, hck⟩
  · rintro ⟨-, hck⟩
    rw [hck, hF]

/-- Settles O30: the seven header bytes pair up with the first payload byte, and `LENGTH` is the number of payload bytes. -/
theorem encodedFrameWordSum : Obligations.EncodedFrameWordSum := by
  intro seq ack flags P hP
  have hn : (BitVec.ofNat 16 P.length).toNat = P.length := by
    rw [BitVec.toNat_ofNat, Nat.mod_eq_of_lt (by omega)]
  have hzero : hi8 0x0000#16 = 0x00#8 ∧ lo8 0x0000#16 = 0x00#8 := by decide
  simp only [ser, List.cons_append, List.nil_append, wsum_cons_cons, hi8_toNat, lo8_toNat, hn, hzero, BitVec.toNat_ofNat]
  omega

end Sys2Proof.Machine

/-! SUPPORT. The codec commands by their outcome (42_packet_codec.md R152, R156, R160): what is known when one succeeded, the verdict of
VALIDATE, and the fault when a byte it reads is unspecified (20_memory.md R76). -/

namespace Sys2Proof.Machine

/-- A buffer holds one sequence of a given length. -/
theorem holds_unique {m : Memory} {F G : List Byte} (hF : Memory.Holds m F) (hG : Memory.Holds m G)
    (h : F.length = G.length) : F = G := by
  have hread := (readBytes_of_holds (sp := .pkt) hF rfl).symm.trans (readBytes_of_holds hG h)
  exact Except.ok.inj hread

theorem report_noFailure (s : State) : report .noFailure s = { s with err := 0 } := rfl

/-! The checks. -/

/-- The length check of a frame whose length bytes are `h` and `l` fails (R156, R160). -/
theorem frameCheck_lengthMismatch {s : State} {h l : Byte} (h7 : 7 ≤ s.pktlen.toNat) (h1007 : s.pktlen.toNat ≤ 1007)
    (h3 : Memory.read s.pkt 3 = some h) (h4 : Memory.read s.pkt 4 = some l)
    (hne : s.pktlen.toNat - 7 ≠ h.toNat * 256 + l.toNat) : frameCheck s = .ok (some .lengthMismatch) := by
  rw [frameCheck_mid h7 h1007 h3 h4, if_neg hne]

/-! ENCODE. -/

/-- A frame stored is a frame of `PKTLEN` bytes. -/
theorem storeFrame_pktlen_toNat {F : List Byte} (h : F.length ≤ 1007) (s : State) :
    (storeFrame F s).pktlen.toNat = F.length := by
  rw [storeFrame_pktlen, BitVec.toNat_ofNat, Nat.mod_eq_of_lt (by omega)]

/-- After a successful ENCODE, `PKT` holds the frame that `enc` made, and the packet record is as it was. -/
theorem execEncode_success {s t : State} (h : execEncode s = .next t) (h0 : t.err = 0) :
    ∃ P : List Byte, P.length = s.length.toNat ∧ P.length ≤ 1000 ∧ Memory.Holds s.pay P
      ∧ t = report .noFailure (storeFrame (enc s.seq s.ack s.flags P) s)
      ∧ t.pktlen.toNat = (enc s.seq s.ack s.flags P).length ∧ Memory.Holds t.pkt (enc s.seq s.ack s.flags P) := by
  rcases execEncode_next h with ⟨-, rfl⟩ | ⟨hlen, P, hP, hpay, rfl⟩
  · exact absurd (code_eq_zero (r := .payloadTooLarge) |>.mp h0) (by decide)
  · have hfit : (enc s.seq s.ack s.flags P).length ≤ 1007 := by
      rw [length_enc]
      omega
    exact ⟨P, hP, by omega, hpay, rfl, storeFrame_pktlen_toNat hfit s, holds_writeAll s.pkt _⟩

/-! DECODE. -/

theorem execDecode_success {s t : State} (h : execDecode s = .next t) (h0 : t.err = 0) :
    ∃ F : List Byte, s.pktlen.toNat = F.length ∧ Memory.Holds s.pkt F ∧ wfFrame F = true
      ∧ t = report .noFailure (loadRecord F s) := by
  rcases execDecode_next h with ⟨r, hc, rfl⟩ | ⟨hc, F, hlen, hF, rfl⟩
  · exact absurd (code_eq_zero.mp h0) (frameCheck_some_ne hc)
  · exact ⟨F, hlen.symm, hF, (frameCheck_of_holds hlen.symm hF).mp hc, rfl⟩

/-! VALIDATE. -/

theorem execValidate_of_validFrame {s : State} {F : List Byte} (hl : s.pktlen.toNat = F.length) (hF : Memory.Holds s.pkt F)
    (hv : validFrame F = true) : execValidate s = verdict .noFailure s := by
  obtain ⟨hw, hck⟩ := validFrame_iff.mp hv
  rw [execValidate_of_wfFrame hl hF hw, if_pos hck]

theorem execValidate_of_cksum_ne {s : State} {F : List Byte} (hl : s.pktlen.toNat = F.length) (hF : Memory.Holds s.pkt F)
    (hw : wfFrame F = true) (hck : cksum (zck F) ≠ ckf F) : execValidate s = verdict .checksumMismatch s := by
  rw [execValidate_of_wfFrame hl hF hw, if_neg hck]

/-- VALIDATE ends in a verdict, and the verdict on a specified frame is that of `validFrame` (R160). -/
theorem execValidate_verdict {s t : State} (h : execValidate s = .next t) :
    ∃ r : Reason, t = { s with err := r.code, valid := decide (r = .noFailure) }
      ∧ ∀ F : List Byte, s.pktlen.toNat = F.length → Memory.Holds s.pkt F → (r = .noFailure ↔ validFrame F = true) := by
  rcases execValidate_next h with ⟨r, hc, hv⟩ | ⟨hc, F, hlen, hF, hv⟩ <;> cases hv
  · refine ⟨r, rfl, fun F hl hF => iff_of_false (frameCheck_some_ne hc) fun hvalid => ?_⟩
    have hpass := (frameCheck_of_holds hl hF).mpr (validFrame_iff.mp hvalid).1
    rw [hc] at hpass
    cases hpass
  · refine ⟨_, rfl, fun G hl hG => ?_⟩
    obtain rfl := holds_unique hG hF (hl.symm.trans hlen.symm)
    have hw := (frameCheck_of_holds hl hG).mp hc
    rw [validFrame_iff]
    split_ifs with hck <;> simp [hw, hck]

/-- `VALID = 1` means that a valid frame was read. -/
theorem execValidate_valid {s t : State} (h : execValidate s = .next t) (hv : t.valid = true) :
    ∃ F : List Byte, s.pktlen.toNat = F.length ∧ Memory.Holds s.pkt F ∧ validFrame F = true := by
  rcases execValidate_next h with ⟨r, hc, hv'⟩ | ⟨hc, F, hlen, hF, hv'⟩ <;> cases hv'
  · exact absurd (of_decide_eq_true hv) (frameCheck_some_ne hc)
  · refine ⟨F, hlen.symm, hF, validFrame_iff.mpr ⟨(frameCheck_of_holds hlen.symm hF).mp hc, ?_⟩⟩
    by_contra hck
    simp [hck] at hv

/-! Unspecified bytes (20_memory.md R76). -/

/-- An unspecified byte in the range read from offset 0 is a fault that names one. -/
theorem readBytes_error_of_unspecified {sp : BufSpace} {m : Memory} {a n : Nat} (ha : a < n) (h : Memory.read m a = none) :
    ∃ b, readBytes sp m 0 n = .error (.unspecifiedByte sp b) ∧ b < n ∧ Memory.read m b = none := by
  cases hread : readBytes sp m 0 n with
  | ok B =>
    obtain ⟨hlen, hB⟩ := holds_of_readBytes hread
    have hbyte := hB a (by omega)
    rw [h, List.getElem?_eq_getElem (by omega)] at hbyte
    cases hbyte
  | error f =>
    obtain ⟨i, hi, rfl, hnone, -⟩ := readBytes_error_iff.mp hread
    rw [Nat.zero_add] at hnone ⊢
    exact ⟨i, rfl, hi, hnone⟩

/-- The fault `f` in reading the frame: in the checks, or in the read that follows them. -/
def FrameFault (s : State) (f : Fault) : Prop :=
  frameCheck s = .error f ∨ frameCheck s = .ok none ∧ readBytes .pkt s.pkt 0 s.pktlen.toNat = .error f

theorem execDecode_of_frameFault {s : State} {f : Fault} (h : FrameFault s f) : execDecode s = .fault f := by
  unfold execDecode
  rcases h with hc | ⟨hc, hread⟩
  · rw [hc]
  · rw [hc]
    simp only [frameLen, hread]

theorem execValidate_of_frameFault {s : State} {f : Fault} (h : FrameFault s f) : execValidate s = .fault f := by
  unfold execValidate
  rcases h with hc | ⟨hc, hread⟩
  · rw [hc]
  · rw [hc]
    simp only [frameLen, hread]

/-- An unspecified length byte, or any unspecified byte of a frame whose checks pass, is a fault of the read. -/
theorem frameFault_of_unspecified {s : State} (h7 : 7 ≤ s.pktlen.toNat) (h1007 : s.pktlen.toNat ≤ 1007)
    (hu : Memory.read s.pkt 3 = none ∨ Memory.read s.pkt 4 = none
      ∨ ∃ h l a, Memory.read s.pkt 3 = some h ∧ Memory.read s.pkt 4 = some l ∧ s.pktlen.toNat - 7 = h.toNat * 256 + l.toNat
          ∧ a < s.pktlen.toNat ∧ Memory.read s.pkt a = none) :
    ∃ b, FrameFault s (.unspecifiedByte .pkt b) ∧ b < s.pktlen.toNat ∧ Memory.read s.pkt b = none := by
  rcases frameCheck_cases s with ⟨hlong, -⟩ | ⟨hshort, -⟩ | ⟨-, -, a, ha, hnone, hc⟩ | ⟨-, -, h, l, h3, h4, hne, -⟩
    | ⟨-, -, h, l, h3, h4, -, hc⟩
  · omega
  · omega
  · exact ⟨a, .inl hc, by omega, hnone⟩
  · rcases hu with hu | hu | ⟨h', l', a, h3', h4', heq, -⟩
    · simp [h3] at hu
    · simp [h4] at hu
    · obtain rfl := Option.some.inj (h3.symm.trans h3')
      obtain rfl := Option.some.inj (h4.symm.trans h4')
      exact absurd (heq.trans (be16_toNat h l).symm) hne
  · rcases hu with hu | hu | ⟨-, -, a, -, -, -, ha, hnone⟩
    · simp [h3] at hu
    · simp [h4] at hu
    · obtain ⟨b, hread, hb, hnoneb⟩ := readBytes_error_of_unspecified (sp := .pkt) ha hnone
      exact ⟨b, .inr ⟨hc, hread⟩, hb, hnoneb⟩

end Sys2Proof.Machine

/-! SUPPORT. The statements on ENCODE, DECODE and VALIDATE, one command at a time (42_packet_codec.md R152 to R161). -/

namespace Sys2Proof.Machine

/-- ENCODE on a specified payload of `LENGTH` bytes (R152), the frame written out. -/
theorem exec_encode_of_holds {s : State} {P : List Byte} (hP : P.length = s.length.toNat) (h : P.length ≤ 1000)
    (hpay : Memory.Holds s.pay P) :
    exec .encode s = .next (report .noFailure (storeFrame (ser s.seq s.ack s.flags s.length
      (cksum (ser s.seq s.ack s.flags s.length 0x0000#16 P)) P) s)) := by
  rw [← enc_eq_ser hP]
  exact execEncode_of_holds hP h hpay

/-- Settles O31: the test on `LENGTH`, the frame `enc` makes, and the fault of the payload's read. -/
theorem encodeBuildsTheFrame : Obligations.EncodeBuildsTheFrame := by
  refine ⟨decode_encode .encode, fun s h => execEncode_tooLarge h, fun s P hP hlen hpay => ?_, fun s a hlen ha hnone => ?_⟩
  · refine ⟨_, _, exec_encode_of_holds hP hlen hpay, ?_, rfl, fun a ha => ?_, fun a ha => ?_⟩
    · simp only [report_noFailure, storeFrame, length_ser, ckf_ser]
      rfl
    · exact holds_writeAll s.pkt _ a (by rwa [length_ser])
    · exact read_writeAll_above s.pkt _ (by rwa [length_ser])
  · obtain ⟨b, hread, hb, hnoneb⟩ := readBytes_error_of_unspecified (sp := .pay) ha hnone
    exact ⟨b, execEncode_of_readBytes_error hlen hread, hb, hnoneb⟩

/-- Settles O32: the frame is the one `enc` made. -/
theorem encodeEstablishesThePacketInvariant : Obligations.EncodeEstablishesThePacketInvariant := by
  intro s t h h0
  obtain ⟨P, hP, hlen, hpay, rfl, hpktlen, hpkt⟩ := execEncode_success h h0
  refine ⟨_, hpktlen.symm, hpkt, hP, hpay, ?_, ckf_enc .., validFrame_enc hlen ..⟩
  rw [hpktlen, length_enc, hP]
  rfl

/-- Settles O33: the answers of the checks, the record of a well-formed frame, and the fault of the frame's read. -/
theorem decodeUnpacksTheFrame : Obligations.DecodeUnpacksTheFrame := by
  refine ⟨decode_encode .decode, fun s h => execDecode_of_check (frameCheck_long h),
    fun s h => execDecode_of_check (frameCheck_short h),
    fun s h l h7 h1007 h3 h4 hne => execDecode_of_check (frameCheck_lengthMismatch h7 h1007 h3 h4 hne),
    fun s b0 b1 b2 b3 b4 b5 b6 P hl hlen hfield hF => ?_, fun s h7 h1007 hu => ?_⟩
  · rw [bytes_eq_ser] at hF
    have hP : P.length = (be16 b3 b4).toNat := hfield.symm.trans (be16_toNat b3 b4).symm
    refine ⟨_, execDecode_of_wfFrame (hl.trans (length_ser ..).symm) hF (wfFrame_ser.mpr ⟨hlen, hP⟩), ?_,
      holds_writeAll s.pay P, fun a => read_writeAll_above s.pay P⟩
    simp only [report_noFailure, loadRecord, seqOf_ser, ackOf_ser, flagsOf_ser, lenf_ser, ckf_ser, ofNat_toNat_length hP]
    rfl
  · obtain ⟨b, hfault, hb⟩ := frameFault_of_unspecified h7 h1007 hu
    exact ⟨b, execDecode_of_frameFault hfault, hb⟩

/-- Settles O34: `CHECKSUM` is the frame's own field, which is what `validFrame` compares. -/
theorem decodeDoesNotCheckTheChecksum : Obligations.DecodeDoesNotCheckTheChecksum := by
  intro s F hl hF hw
  refine ⟨_, execDecode_of_wfFrame hl hF hw, rfl, rfl, ?_⟩
  rw [validFrame_iff, and_iff_right hw]
  exact eq_comm

/-- Settles O35, from the length field of a well-formed frame. -/
theorem decodedPayloadFits : Obligations.DecodedPayloadFits := by
  intro s t h h0
  obtain ⟨F, hl, -, hw, rfl⟩ := execDecode_success h h0
  obtain ⟨h7, h1007, hfield⟩ := wfFrame_iff.mp hw
  simp only [report_pktlen, report_length, loadRecord_pktlen, loadRecord_length]
  omega

/-- Settles O36: the answers of the checks, the comparison on a well-formed frame, and the fault of the frame's read. -/
theorem validateReportsTheVerdict : Obligations.ValidateReportsTheVerdict := by
  refine ⟨decode_encode .validate, fun s h => execValidate_of_check (frameCheck_long h),
    fun s h => execValidate_of_check (frameCheck_short h),
    fun s h l h7 h1007 h3 h4 hne => execValidate_of_check (frameCheck_lengthMismatch h7 h1007 h3 h4 hne),
    fun s b0 b1 b2 b3 b4 b5 b6 P hl hlen hfield hF => ?_, fun s t F h => ?_, fun s h7 h1007 hu => ?_⟩
  · have hzck := bytes_eq_ser b0 b1 b2 b3 b4 0x00#8 0x00#8 P
    rw [bytes_eq_ser] at hF
    have hw : wfFrame (ser b0 b1 b2 (be16 b3 b4) (be16 b5 b6) P) = true :=
      wfFrame_ser.mpr ⟨hlen, hfield.symm.trans (be16_toNat b3 b4).symm⟩
    have hl' := hl.trans (length_ser b0 b1 b2 (be16 b3 b4) (be16 b5 b6) P).symm
    rw [hzck]
    refine ⟨fun hck => ?_, fun hck => ?_⟩
    · exact execValidate_of_validFrame hl' hF (validFrame_iff.mpr ⟨hw, hck.trans (ckf_ser ..).symm⟩)
    · exact execValidate_of_cksum_ne hl' hF hw fun heq => hck (heq.trans (ckf_ser ..))
  · obtain ⟨r, rfl, hr⟩ := execValidate_verdict h
    rw [decide_eq_true_iff]
    exact ⟨code_eq_zero.symm, hr F⟩
  · obtain ⟨b, hfault, hb⟩ := frameFault_of_unspecified h7 h1007 hu
    exact ⟨b, execValidate_of_frameFault hfault, hb⟩

/-- Settles O37: a verdict writes two fields, and `VALID = 1` means a well-formed frame, on which DECODE succeeds. -/
theorem decodeAfterValidVerdictSucceeds : Obligations.DecodeAfterValidVerdictSucceeds := by
  refine ⟨fun s t h => ?_, fun s t h => (exec_frame h).valid (by simp), fun s t u h hv hpkt hpktlen => ?_⟩
  · obtain ⟨r, rfl, -⟩ := execValidate_verdict h
    rfl
  · have hf := exec_frame h
    rw [hf.pkt (by simp)] at hpkt
    rw [hf.pktlen (by simp)] at hpktlen
    obtain ⟨F, hl, hF, hvalid⟩ := execValidate_valid h hv
    have hw := (validFrame_iff.mp hvalid).1
    exact ⟨_, execDecode_of_wfFrame ((congrArg _ hpktlen).trans hl) (hpkt ▸ hF) hw, rfl⟩

end Sys2Proof.Machine

/-! SUPPORT. Round trips between the packet record and the frame (42_packet_codec.md R163, R164). -/

namespace Sys2Proof.Machine

/-- Settles O38: `PKT` holds the frame that `enc` made, which is valid. -/
theorem encodedFrameValidates : Obligations.EncodedFrameValidates := by
  intro s t u h h0 hpkt hpktlen
  obtain ⟨P, -, hlen, -, -, hl, hF⟩ := execEncode_success h h0
  exact execValidate_of_validFrame ((congrArg _ hpktlen).trans hl) (hpkt ▸ hF) (validFrame_enc hlen ..)

/-- Loading the record of a frame made from the record of `s` gives that record back, payload buffer included (R164). -/
theorem loadRecord_storeFrame_enc {s : State} {P : List Byte} (hs : s.Inv) (hP : P.length = s.length.toNat)
    (hpay : Memory.Holds s.pay P) :
    loadRecord (enc s.seq s.ack s.flags P) (storeFrame (enc s.seq s.ack s.flags P) s)
      = storeFrame (enc s.seq s.ack s.flags P) s := by
  obtain ⟨-, hwf, -⟩ := hs
  have hsame : Memory.writeAll s.pay 0 P = s.pay :=
    writeAll_of_read hwf fun i hi => by rw [Nat.zero_add]; exact hpay i hi
  rw [enc_eq_ser hP]
  simp only [loadRecord, storeFrame, seqOf_ser, ackOf_ser, flagsOf_ser, lenf_ser, ckf_ser, payl_ser, hsame]

theorem encode_then_decode_gives_record {s t u : State} (h : exec .encode s = .next t) (h0 : t.err = 0)
    (hpkt : u.pkt = t.pkt) (hpktlen : u.pktlen = t.pktlen) :
    ∃ v, exec .decode u = .next v ∧ v.err = 0 ∧ v.seq = t.seq ∧ v.ack = t.ack ∧ v.flags = t.flags ∧ v.length = t.length
      ∧ v.checksum = t.checksum ∧ ∀ a, a < t.length.toNat → Memory.read v.pay a = Memory.read t.pay a := by
  obtain ⟨P, hP, hlen, hpay, rfl, hl, hF⟩ := execEncode_success h h0
  have hw := (validFrame_iff.mp (validFrame_enc hlen s.seq s.ack s.flags)).1
  refine ⟨_, execDecode_of_wfFrame ((congrArg _ hpktlen).trans hl) (hpkt ▸ hF) hw, rfl, rfl, rfl, rfl, ?_, rfl,
    fun a ha => ?_⟩
  · exact (lenf_ser ..).trans (ofNat_toNat_length hP)
  · have haP : a < P.length := ha.trans_eq hP.symm
    exact (holds_writeAll u.pay P a haP).trans (hpay a haP).symm

theorem decode_at_once_after_encode {s t : State} (hs : s.Inv) (h : exec .encode s = .next t) (h0 : t.err = 0) :
    exec .decode t = .next t := by
  obtain ⟨P, hP, hlen, hpay, rfl, hl, hF⟩ := execEncode_success h h0
  have hw := (validFrame_iff.mp (validFrame_enc hlen s.seq s.ack s.flags)).1
  have hsame := congrArg (report .noFailure) (loadRecord_storeFrame_enc hs hP hpay)
  exact (execDecode_of_wfFrame hl hF hw).trans (congrArg Host.Outcome.next hsame)

theorem decode_then_encode_gives_frame {s t u : State} {F : List Byte} (h : exec .decode s = .next t) (h0 : t.err = 0)
    (hl : s.pktlen.toNat = F.length) (hF : Memory.Holds s.pkt F) (hseq : u.seq = t.seq) (hack : u.ack = t.ack)
    (hflags : u.flags = t.flags) (hlength : u.length = t.length) (hpay : u.pay = t.pay) :
    ∃ (v : State) (G : List Byte), exec .encode u = .next v ∧ v.err = 0 ∧ v.pktlen = s.pktlen ∧ G.length = F.length
      ∧ Memory.Holds v.pkt G ∧ (∀ i, i ≠ 5 → i ≠ 6 → G[i]? = F[i]?) ∧ ckf G = cksum (zck F)
      ∧ (G = F ↔ validFrame F = true) := by
  obtain ⟨F', hl', hF', hw, rfl⟩ := execDecode_success h h0
  obtain rfl := holds_unique hF hF' (hl.symm.trans hl')
  obtain ⟨h7, -, -⟩ := wfFrame_iff.mp hw
  obtain ⟨hP, hlen⟩ := length_payl_of_wfFrame hw
  have hPu : (payl F).length = u.length.toNat := hP.trans (congrArg _ hlength.symm)
  have hhold : Memory.Holds u.pay (payl F) := hpay ▸ holds_writeAll s.pay (payl F)
  have henc : enc u.seq u.ack u.flags (payl F) = enc (seqOf F) (ackOf F) (flagsOf F) (payl F) := by
    rw [hseq, hack, hflags]
    rfl
  have hG : (enc (seqOf F) (ackOf F) (flagsOf F) (payl F)).length = F.length := by
    rw [length_enc, length_payl]
    omega
  have hexec := execEncode_of_holds hPu hlen hhold
  rw [henc] at hexec
  refine ⟨_, _, hexec, rfl, ?_, hG, holds_writeAll u.pkt _, fun i h5 h6 => ?_, ?_, enc_fields_eq_iff hw⟩
  · exact (congrArg (BitVec.ofNat 16) hG).trans (ofNat_toNat_length hl.symm)
  · rw [enc_fields hw, getElem?_ser_of_ne h5 h6 _ _ _ _ _ (ckf F), ser_fields h7]
  · rw [enc_fields hw, ckf_ser]

/-- Settles O39: the two round trips from ENCODE and the one from DECODE. -/
theorem encodeDecodeRoundTrips : Obligations.EncodeDecodeRoundTrips :=
  ⟨fun _ _ _ h h0 => encode_then_decode_gives_record h h0, fun _ _ hs h h0 => decode_at_once_after_encode hs h h0,
    fun _ _ _ _ h h0 => decode_then_encode_gives_frame h h0⟩

end Sys2Proof.Machine

/-! SUPPORT. One flipped bit in a valid frame (42_packet_codec.md R165): what replacing a byte does to the fields of a frame, and why each
place of the bit is noticed. -/

namespace Sys2Proof.Machine

theorem byteAt_set_self {F : List Byte} {k : Nat} (hk : k < F.length) (v : Byte) : byteAt (F.set k v) k = v := by
  rw [byteAt, List.getD_eq_getElem?_getD, List.getElem?_set_self hk, Option.getD_some]

theorem byteAt_set_of_ne {k i : Nat} (h : k ≠ i) (F : List Byte) (v : Byte) : byteAt (F.set k v) i = byteAt F i := by
  rw [byteAt, byteAt, List.getD_eq_getElem?_getD, List.getD_eq_getElem?_getD, List.getElem?_set_ne h]

theorem be16_inj {h l h' l' : Byte} (heq : be16 h l = be16 h' l') : h = h' ∧ l = l' := by
  have hhi := congrArg hi8 heq
  have hlo := congrArg lo8 heq
  rw [hi8_be16, hi8_be16] at hhi
  rw [lo8_be16, lo8_be16] at hlo
  exact ⟨hhi, hlo⟩

theorem flip_ne (b : Byte) {j : Nat} (hj : j < 8) : b ^^^ (1#8 <<< j) ≠ b := by
  intro heq
  have hpos := Nat.two_pow_pos j
  have hmove := toNat_flip b hj
  rw [heq] at hmove
  omega

/-- A 16-bit field of two bytes changes when one of its bytes does. -/
theorem be16_set_ne {F : List Byte} {k i : Nat} {v : Byte} (hk : k < F.length) (hv : v ≠ byteAt F k) (hi : k = i ∨ k = i + 1) :
    be16 (byteAt (F.set k v) i) (byteAt (F.set k v) (i + 1)) ≠ be16 (byteAt F i) (byteAt F (i + 1)) := by
  intro heq
  obtain ⟨hhi, hlo⟩ := be16_inj heq
  rcases hi with rfl | rfl
  · exact hv ((byteAt_set_self hk v).symm.trans hhi)
  · exact hv ((byteAt_set_self hk v).symm.trans hlo)

theorem lenf_set_of_ne {k : Nat} (h3 : k ≠ 3) (h4 : k ≠ 4) (F : List Byte) (v : Byte) : lenf (F.set k v) = lenf F := by
  rw [lenf, lenf, byteAt_set_of_ne h3, byteAt_set_of_ne h4]

theorem ckf_set_of_ne {k : Nat} (h5 : k ≠ 5) (h6 : k ≠ 6) (F : List Byte) (v : Byte) : ckf (F.set k v) = ckf F := by
  rw [ckf, ckf, byteAt_set_of_ne h5, byteAt_set_of_ne h6]

/-- Zeroing the checksum field is writing its two bytes (R98). -/
theorem zck_eq_set {F : List Byte} (h : 7 ≤ F.length) : zck F = (F.set 5 0x00#8).set 6 0x00#8 := by
  rw [← ser_fields h]
  rfl

theorem zck_set_checksum_byte {F : List Byte} {k : Nat} (h : 7 ≤ F.length) (hk : k = 5 ∨ k = 6) (v : Byte) :
    zck (F.set k v) = zck F := by
  rw [zck_eq_set h, zck_eq_set (by rwa [List.length_set])]
  rcases hk with rfl | rfl
  · rw [List.set_set]
  · rw [List.set_comm _ _ (by omega), List.set_set, List.set_comm _ _ (by omega)]

theorem zck_set_of_ne {F : List Byte} {k : Nat} (h : 7 ≤ F.length) (h5 : k ≠ 5) (h6 : k ≠ 6) (v : Byte) :
    zck (F.set k v) = (zck F).set k v := by
  rw [zck_eq_set h, zck_eq_set (by rwa [List.length_set]), List.set_comm _ _ h5, List.set_comm _ _ h6]

theorem byteAt_zck_of_ne {F : List Byte} {k : Nat} (h : 7 ≤ F.length) (h5 : k ≠ 5) (h6 : k ≠ 6) :
    byteAt (zck F) k = byteAt F k := by
  rw [zck_eq_set h, byteAt_set_of_ne h6.symm, byteAt_set_of_ne h5.symm]

theorem length_zck {F : List Byte} (h : 7 ≤ F.length) : (zck F).length = F.length := by
  rw [zck_eq_set h, List.length_set, List.length_set]

/-- A byte outside the length field can change without the frame becoming ill formed. -/
theorem wfFrame_set_of_ne {F : List Byte} {k : Nat} (h3 : k ≠ 3) (h4 : k ≠ 4) (v : Byte) (hw : wfFrame F = true) :
    wfFrame (F.set k v) = true := by
  rw [wfFrame_iff] at hw ⊢
  rwa [List.length_set, lenf_set_of_ne h3 h4]

/-- `F` with bit `j` of the byte at offset `k` flipped. -/
abbrev flipBit (F : List Byte) (k j : Nat) : List Byte := F.set k (byteAt F k ^^^ (1#8 <<< j))

/-- After a bit flip the stored and the computed checksum differ: the bit moves one of the two and leaves the other. -/
theorem cksum_zck_flip_ne {F : List Byte} {k j : Nat} (hvalid : validFrame F = true) (hk : k < F.length) (hj : j < 8) :
    cksum (zck (flipBit F k j)) ≠ ckf (flipBit F k j) := by
  obtain ⟨hw, hck⟩ := validFrame_iff.mp hvalid
  obtain ⟨h7, -, -⟩ := wfFrame_iff.mp hw
  by_cases hfield : k = 5 ∨ k = 6
  · rw [zck_set_checksum_byte h7 hfield, hck]
    exact (be16_set_ne hk (flip_ne _ hj) hfield).symm
  · obtain ⟨h5, h6⟩ := not_or.mp hfield
    rw [zck_set_of_ne h7 h5 h6, ckf_set_of_ne h5 h6, ← hck, ← byteAt_zck_of_ne h7 h5 h6]
    exact singleBitFlipChangesTheChecksum.1 (zck F) k j (by rwa [length_zck h7]) hj

/-- A frame of admissible length whose length field says otherwise (R155). -/
theorem frameCheck_of_lenf_ne {s : State} {F : List Byte} (hl : s.pktlen.toNat = F.length) (hF : Memory.Holds s.pkt F)
    (h7 : 7 ≤ F.length) (h1007 : F.length ≤ 1007) (hne : F.length - 7 ≠ (lenf F).toNat) :
    frameCheck s = .ok (some .lengthMismatch) := by
  have hbyte (i : Nat) (hi : i < F.length) : Memory.read s.pkt i = some (byteAt F i) := by
    rw [hF i hi, byteAt, List.getD_eq_getElem _ _ hi, List.getElem?_eq_getElem hi]
  refine frameCheck_lengthMismatch (by omega) (by omega) (hbyte 3 (by omega)) (hbyte 4 (by omega)) ?_
  rwa [hl, ← be16_toNat]

/-- VALIDATE on a valid frame with one bit flipped (R165). -/
theorem execValidate_of_flip {s : State} {F : List Byte} {k j : Nat} (hl : s.pktlen.toNat = F.length)
    (hF : Memory.Holds s.pkt (flipBit F k j)) (hvalid : validFrame F = true) (hk : k < F.length)
    (hj : j < 8) : execValidate s = verdict (if k = 3 ∨ k = 4 then .lengthMismatch else .checksumMismatch) s := by
  obtain ⟨hw, -⟩ := validFrame_iff.mp hvalid
  obtain ⟨h7, h1007, hlen⟩ := wfFrame_iff.mp hw
  have hl' : s.pktlen.toNat = (flipBit F k j).length := by rw [List.length_set, hl]
  split_ifs with hfield
  · refine execValidate_of_check (frameCheck_of_lenf_ne hl' hF (by omega) (by omega) fun heq => ?_)
    have hsame : lenf (flipBit F k j) = lenf F :=
      BitVec.eq_of_toNat_eq (by rw [← heq, List.length_set, hlen])
    exact be16_set_ne hk (flip_ne _ hj) hfield hsame
  · obtain ⟨h3, h4⟩ := not_or.mp hfield
    exact execValidate_of_cksum_ne hl' hF (wfFrame_set_of_ne h3 h4 _ hw) (cksum_zck_flip_ne hvalid hk hj)

/-- Settles O40: the flipped frame stands in `PKT`, and V21 and V23 are evaluated. -/
theorem singleBitCorruptionIsRejected : Obligations.SingleBitCorruptionIsRejected := by
  refine ⟨fun s F k j m hl hF hvalid hk hj hm => ?_, ?_⟩
  · have hflip : Memory.Holds m (flipBit F k j) := hm ▸ holds_write hF k _
    refine (execValidate_of_flip (s := { s with pkt := m }) hl hflip hvalid hk hj).trans ?_
    split_ifs <;> rfl
  · rintro F rfl
    decide

end Sys2Proof.Machine

/-! SUPPORT. Faults (60_exceptions.md R194, 20_memory.md R66, R76): whatever faults names a byte of a buffer that lies inside its space and
is unspecified; with the refusals of R68 left out, every other outcome is a next state. -/

namespace Sys2Proof.Machine

/-- The fault `f` names a byte that lies inside its space and is unspecified in `s`. -/
def NamesUnspecifiedByte (s : State) (f : Fault) : Prop :=
  ∃ sp a, f = .unspecifiedByte sp a ∧ a < BufSpace.capacity sp ∧ Memory.read (s.buffer sp) a = none

theorem not_namesUnspecifiedByte {s : State} (h : ∀ sp a, a < BufSpace.capacity sp → Memory.read (s.buffer sp) a ≠ none)
    (f : Fault) : ¬ NamesUnspecifiedByte s f := by
  rintro ⟨sp, a, -, ha, hnone⟩
  exact h sp a ha hnone

theorem readBytes_fault {s : State} {sp : BufSpace} {n : Nat} {f : Fault} (hn : n ≤ sp.capacity)
    (h : readBytes sp (s.buffer sp) 0 n = .error f) : NamesUnspecifiedByte s f := by
  obtain ⟨i, hi, hf, hnone, -⟩ := readBytes_error_iff.mp h
  exact ⟨sp, 0 + i, hf, by omega, hnone⟩

/-! The codec commands. -/

theorem execEncode_fault {s : State} {f : Fault} (h : execEncode s = .fault f) : NamesUnspecifiedByte s f := by
  unfold execEncode at h
  split_ifs at h with hlong
  · cases h
  · split at h
    · next g hread =>
      cases h
      exact readBytes_fault (sp := .pay) (Nat.le_of_not_lt hlong) hread
    · cases h

theorem frameFault_of_execDecode {s : State} {f : Fault} (h : execDecode s = .fault f) : FrameFault s f := by
  unfold execDecode at h
  split at h
  · next g hc =>
    cases h
    exact .inl hc
  · cases h
  · next hc =>
    split at h
    · next g hread =>
      cases h
      exact .inr ⟨hc, hread⟩
    · cases h

theorem frameFault_of_execValidate {s : State} {f : Fault} (h : execValidate s = .fault f) : FrameFault s f := by
  unfold execValidate at h
  split at h
  · next g hc =>
    cases h
    exact .inl hc
  · cases h
  · next hc =>
    split at h
    · next g hread =>
      cases h
      exact .inr ⟨hc, hread⟩
    · split_ifs at h <;> cases h

/-- The checks stop at a length byte; the read that follows them stays within the 1007 bytes they admit. -/
theorem namesUnspecifiedByte_of_frameFault {s : State} {f : Fault} (h : FrameFault s f) : NamesUnspecifiedByte s f := by
  rcases h with hc | ⟨hc, hread⟩
  · obtain ⟨a, rfl, ha, -, hnone⟩ := frameCheck_error hc
    exact ⟨.pkt, a, rfl, ha, hnone⟩
  · obtain ⟨-, h1007, -⟩ := frameCheck_none hc
    exact readBytes_fault (sp := .pkt) h1007 hread

/-! The commands, the accesses and the events. -/

theorem exec_fault {i : Instr} {s : State} {f : Fault} (h : exec i s = .fault f) : NamesUnspecifiedByte s f := by
  cases i with
  | ckinit | ckbyte b | ckfin | ckvfy => cases h
  | encode => exact execEncode_fault h
  | decode => exact namesUnspecifiedByte_of_frameFault (frameFault_of_execDecode h)
  | validate => exact namesUnspecifiedByte_of_frameFault (frameFault_of_execValidate h)

theorem writeReg_fault {r : Reg} {v : Word} {s : State} {f : Fault} (h : writeReg r v s = .fault f) :
    NamesUnspecifiedByte s f := by
  cases r with
  | cmd =>
    cases hd : decode v with
    | ok i => exact exec_fault ((runCommand_of_ok s hd).symm.trans h)
    | error e => cases (runCommand_of_error s hd).symm.trans h
  | status | seq | ack | flags | length | checksum | pktlen | ckacc | cksum | expect => cases h

theorem hostBufRead_fault {sp : BufSpace} {a : Nat} {s : State} {f : Fault} (ha : a < sp.capacity)
    (h : hostBufRead sp a s = .fault f) : NamesUnspecifiedByte s f := by
  cases hread : Memory.read (s.buffer sp) a with
  | none =>
    cases (hostBufRead_of_none hread).symm.trans h
    exact ⟨sp, a, rfl, ha, hread⟩
  | some b => cases (hostBufRead_of_some hread).symm.trans h

theorem perform_fault {e : Event} {s : State} {f : Fault} (h : perform e s = .fault f) : NamesUnspecifiedByte s f := by
  cases e with
  | regRead n =>
    simp only [perform] at h
    split at h <;> cases h
  | regWrite n v =>
    simp only [perform] at h
    split at h
    · cases h
    · split_ifs at h
      exact writeReg_fault h
  | bufRead sp a =>
    simp only [perform] at h
    split_ifs at h with ha
    exact hostBufRead_fault ha h
  | bufWrite sp a v =>
    simp only [perform] at h
    split_ifs at h
  | reset => cases h

/-- Of the three outcomes a well-formed event leaves two: it is not refused, and a fault names an unspecified byte. -/
theorem step_of_wf {s : State} {e : Event} {rest : List Event} (hp : s.pending = e :: rest) (hwf : e.wf = true) :
    (∃ t, step s = .next t) ∨ ∃ f, step s = .fault f ∧ NamesUnspecifiedByte s f := by
  rw [step_of_pending hp]
  cases h : perform e { s with pending := rest } with
  | next t => exact .inl ⟨t, rfl⟩
  | fault f =>
    obtain ⟨sp, a, hf, ha, hnone⟩ := perform_fault h
    exact .inr ⟨f, rfl, sp, a, hf, ha, by rwa [buffer_with_pending] at hnone⟩
  | refused r =>
    have hill := (perform_refused_iff e _).mp ⟨r, h⟩
    simp [hwf] at hill

/-- Settles O12: an event inside the spaces is not refused, and no fault is left when every byte is specified. -/
theorem inRangeEventsAlwaysStep : Obligations.InRangeEventsAlwaysStep := by
  refine ⟨fun s e rest hp hwf => ?_, fun s e rest hp hwf hspec => ?_⟩
  · refine (step_of_wf hp hwf).imp_right ?_
    rintro ⟨_, hstep, sp, a, rfl, ha, hnone⟩
    exact ⟨sp, a, hstep, ha, hnone⟩
  · refine (step_of_wf hp hwf).resolve_right ?_
    rintro ⟨f, -, hnames⟩
    exact not_namesUnspecifiedByte hspec f hnames

end Sys2Proof.Machine

/-! SUPPORT. The reset event, and the streamed verify against VALIDATE (70_reset_and_hazards.md R210, R223). -/

namespace Sys2Proof.Machine

/-- Settles O16: the step answers the reset state of R42, whose buffers list nothing, with the accesses still pending (log 6). -/
theorem resetEventForgetsEverything : Obligations.ResetEventForgetsEverything :=
  fun _ _ h => ⟨_, step_reset h, rfl, rfl, rfl, rfl, rfl, rfl, rfl, rfl, rfl, rfl, rfl, rfl, rfl, rfl,
    fun a => ⟨read_nil a, read_nil a⟩⟩

/-- On a well-formed frame VALIDATE completes, and `VALID` is the comparison of the two checksums (42_packet_codec.md R160). -/
theorem exists_validate_of_wfFrame {s : State} {F : List Byte} (hl : s.pktlen.toNat = F.length) (hF : Memory.Holds s.pkt F)
    (hw : wfFrame F = true) :
    ∃ u, exec .validate s = .next u ∧ u.valid = decide (cksum (zck F) = ckf F) := by
  by_cases hck : cksum (zck F) = ckf F
  · exact ⟨_, execValidate_of_validFrame hl hF (validFrame_iff.mpr ⟨hw, hck⟩), (decide_eq_true hck).symm⟩
  · exact ⟨_, execValidate_of_cksum_ne hl hF hw hck, (decide_eq_false hck).symm⟩

/-- Settles O41: the verify script on `zck F` (R13) and VALIDATE on `F` make the same comparison. -/
theorem streamedVerifyAgreesWithValidate : Obligations.StreamedVerifyAgreesWithValidate := by
  intro s F rest hl hF hw hp
  obtain ⟨h7, -, -⟩ := wfFrame_iff.mp hw
  obtain ⟨u, hvalidate, hvalid⟩ := exists_validate_of_wfFrame hl hF hw
  have hrun := calculateAndVerifyScripts.2 s (zck F) (ckf F) rest hp
  rw [length_zck h7] at hrun
  exact ⟨_, u, hrun, hvalidate, hvalid.symm⟩

end Sys2Proof.Machine
